-- ==== Sys2Proof/Word.lean ====
section
/-!
DEFINITION. The widths of the engine (spec/00_scope.md R4, R8): bytes, 16-bit words, and the
two narrower fields an instruction word is cut into (spec/30_encoding.md R61).
All values are unsigned; nothing is ever sign-extended (R8).
-/

namespace Sys2Proof

/-- A memory cell, a general register or a timer (R10, R20, R22). -/
abbrev Byte := BitVec 8

/-- An instruction word, the index register, the program counter or a return address
(R15, R16, R18, R61). -/
abbrev Word := BitVec 16

/-- A 4-bit field of an instruction word (R61). -/
abbrev Nibble := BitVec 4

/-- The 12-bit immediate `NNN` of an instruction word (R61, R63). -/
abbrev Addr12 := BitVec 12

/-- The 16-bit word with high byte `hi` and low byte `lo`: `hi ++ lo` (spec/20_memory.md R47). -/
def wordOf (hi lo : Byte) : Word := hi ++ lo

end Sys2Proof
end

