-- ==== Sys2Proof/Syntax.lean ====
section
/-!
DEFINITION. The instructions: one constructor per row of spec/opcode_table.json, in the table's
order (spec/30_encoding.md R65). The operands are the fields of R61 and R63: register numbers,
the 12-bit address `NNN`, the 8-bit constant `NN` and the 4-bit count `N`.
-/

namespace Sys2Proof

/-- A general register number, 0 to 15 (spec/10_state.md R10): `V0` to `VF`. -/
abbrev Reg := Fin 16

/-- VF, "the last" register, which doubles as the flag (R12). -/
abbrev Reg.flag : Reg := 15

/-- The 35 instructions (R65). Two fields have no effect and are kept all the same, so that no bit of
a word is dropped (log entry 6): `nnn` of SYS (R81) and `y` of the two shifts (R68). -/
inductive Instr where
  /-- 0NNN: the no-op family (R81). -/
  | sys (nnn : Addr12)
  /-- 00E0: clear the display (R121). -/
  | cls
  /-- 00EE: return from subroutine (R83). -/
  | ret
  /-- 1NNN: jump (R82). -/
  | jp (nnn : Addr12)
  /-- 2NNN: call subroutine (R84). -/
  | call (nnn : Addr12)
  /-- 3XNN: skip if `VX = NN` (R86). -/
  | seVxNn (x : Reg) (nn : Byte)
  /-- 4XNN: skip if `VX != NN` (R87). -/
  | sneVxNn (x : Reg) (nn : Byte)
  /-- 5XY0: skip if `VX = VY` (R88). -/
  | seVxVy (x y : Reg)
  /-- 6XNN: load a constant (R101). -/
  | ldVxNn (x : Reg) (nn : Byte)
  /-- 7XNN: add a constant, no flag (R102). -/
  | addVxNn (x : Reg) (nn : Byte)
  /-- 8XY0: copy a register (R103). -/
  | ldVxVy (x y : Reg)
  /-- 8XY1 (R104). -/
  | orVxVy (x y : Reg)
  /-- 8XY2 (R105). -/
  | andVxVy (x y : Reg)
  /-- 8XY3 (R106). -/
  | xorVxVy (x y : Reg)
  /-- 8XY4: add with carry flag (R107). -/
  | addVxVy (x y : Reg)
  /-- 8XY5: `VX - VY` with no-borrow flag (R108). -/
  | subVxVy (x y : Reg)
  /-- 8XY6: shift right in place; `y` is ignored (R109, R68). -/
  | shrVx (x y : Reg)
  /-- 8XY7: `VY - VX` with no-borrow flag (R110). -/
  | subnVxVy (x y : Reg)
  /-- 8XYE: shift left in place; `y` is ignored (R111, R68). -/
  | shlVx (x y : Reg)
  /-- 9XY0: skip if `VX != VY` (R89). -/
  | sneVxVy (x y : Reg)
  /-- ANNN: load the index register (R151). -/
  | ldINnn (nnn : Addr12)
  /-- BNNN: jump to `NNN + V0` (R85). -/
  | jpV0Nnn (nnn : Addr12)
  /-- CXNN: a drawn byte, masked (R167). -/
  | rndVxNn (x : Reg) (nn : Byte)
  /-- DXYN: draw a sprite of `n` rows (R122). -/
  | drwVxVyN (x y : Reg) (n : Nibble)
  /-- EX9E: skip if the key is pressed (R141). -/
  | skpVx (x : Reg)
  /-- EXA1: skip if the key is not pressed (R142). -/
  | sknpVx (x : Reg)
  /-- FX07: read the delay timer (R131). -/
  | ldVxDt (x : Reg)
  /-- FX0A: wait for a key (R143). -/
  | ldVxK (x : Reg)
  /-- FX15: write the delay timer (R132). -/
  | ldDtVx (x : Reg)
  /-- FX18: write the sound timer (R133). -/
  | ldStVx (x : Reg)
  /-- FX1E: add to the index register (R152). -/
  | addIVx (x : Reg)
  /-- FX29: point the index register at a glyph (R153). -/
  | ldFVx (x : Reg)
  /-- FX33: store three decimal digits (R154). -/
  | ldBVx (x : Reg)
  /-- FX55: store `V0` to `VX` (R155). -/
  | ldMemIVx (x : Reg)
  /-- FX65: load `V0` to `VX` (R156). -/
  | ldVxMemI (x : Reg)
  deriving DecidableEq, Repr

end Sys2Proof
end

