-- ==== Sys2Proof/Decode.lean ====
section
/-!
DEFINITION. From words to instructions and back (spec/30_encoding.md). The decoder is a total function
of the word alone (R64); a word of no row is rejected with its four raw fields (R66). The encoder
is written from the same formats (R62). `opcodeTable` is the table of R65 as data, in the priority
of R64, so that the decoder can be held against it.
-/

namespace Sys2Proof

/-- The four nibbles of a word (R61). -/
structure Fields where
  n3 : Nibble
  x : Nibble
  y : Nibble
  n : Nibble
  deriving DecidableEq, Repr

/-- Cut a word into its four nibbles: `op[15:12]`, `op[11:8]`, `op[7:4]`, `op[3:0]` (R61). -/
def fieldsOf (op : Word) : Fields where
  n3 := op.extractLsb' 12 4
  x := op.extractLsb' 8 4
  y := op.extractLsb' 4 4
  n := op.extractLsb' 0 4

/-- `NN = op[7:0]` (R61). -/
def immByte (op : Word) : Byte := op.extractLsb' 0 8

/-- `NNN = op[11:0]` (R61). -/
def immAddr (op : Word) : Addr12 := op.extractLsb' 0 12

/-- The register a 4-bit field selects (R10). -/
def regOf (f : Nibble) : Reg := f.toFin

/-- The field that selects a register. -/
def regField (r : Reg) : Nibble := BitVec.ofFin r

/-- The words with `n3 = 0`: CLS, RET and, for every other one, SYS (R64, R67). -/
def decodeGroup0 (nnn : Addr12) : Instr :=
  if nnn = 0x0E0#12 then .cls else if nnn = 0x0EE#12 then .ret else .sys nnn

/-- The register-register group `8XYn` (R65 rows 11 to 19); the other `n` are illegal (R66 (c)). -/
def decodeGroup8 (x y : Reg) (n : Nibble) : Option Instr :=
  match n with
  | 0x0#4 => some (.ldVxVy x y)
  | 0x1#4 => some (.orVxVy x y)
  | 0x2#4 => some (.andVxVy x y)
  | 0x3#4 => some (.xorVxVy x y)
  | 0x4#4 => some (.addVxVy x y)
  | 0x5#4 => some (.subVxVy x y)
  | 0x6#4 => some (.shrVx x y)
  | 0x7#4 => some (.subnVxVy x y)
  | 0xE#4 => some (.shlVx x y)
  | _ => none

/-- The key group `EXnn` (R65 rows 25, 26); the other `nn` are illegal (R66 (d)). -/
def decodeGroupE (x : Reg) (nn : Byte) : Option Instr :=
  match nn with
  | 0x9E#8 => some (.skpVx x)
  | 0xA1#8 => some (.sknpVx x)
  | _ => none

/-- The group `FXnn` (R65 rows 27 to 35); the other `nn` are illegal (R66 (e)). -/
def decodeGroupF (x : Reg) (nn : Byte) : Option Instr :=
  match nn with
  | 0x07#8 => some (.ldVxDt x)
  | 0x0A#8 => some (.ldVxK x)
  | 0x15#8 => some (.ldDtVx x)
  | 0x18#8 => some (.ldStVx x)
  | 0x1E#8 => some (.addIVx x)
  | 0x29#8 => some (.ldFVx x)
  | 0x33#8 => some (.ldBVx x)
  | 0x55#8 => some (.ldMemIVx x)
  | 0x65#8 => some (.ldVxMemI x)
  | _ => none

/-- Dispatch on the major opcode `n3`; `none` is an illegal word (R64 to R67). A register-register
skip has a zero low nibble (R66 (a), (b); the spec's decision D7). -/
def decodeFields (n3 : Nibble) (x y : Reg) (n : Nibble) (nn : Byte) (nnn : Addr12) : Option Instr :=
  match n3 with
  | 0x0#4 => some (decodeGroup0 nnn)
  | 0x1#4 => some (.jp nnn)
  | 0x2#4 => some (.call nnn)
  | 0x3#4 => some (.seVxNn x nn)
  | 0x4#4 => some (.sneVxNn x nn)
  | 0x5#4 => if n = 0x0#4 then some (.seVxVy x y) else none
  | 0x6#4 => some (.ldVxNn x nn)
  | 0x7#4 => some (.addVxNn x nn)
  | 0x8#4 => decodeGroup8 x y n
  | 0x9#4 => if n = 0x0#4 then some (.sneVxVy x y) else none
  | 0xA#4 => some (.ldINnn nnn)
  | 0xB#4 => some (.jpV0Nnn nnn)
  | 0xC#4 => some (.rndVxNn x nn)
  | 0xD#4 => some (.drwVxVyN x y n)
  | 0xE#4 => decodeGroupE x nn
  | _ => decodeGroupF x nn  -- 0xF, the one nibble left

/-- The instruction a word spells, or `none` for an illegal word (R64). -/
def decode? (op : Word) : Option Instr :=
  decodeFields (fieldsOf op).n3 (regOf (fieldsOf op).x) (regOf (fieldsOf op).y) (fieldsOf op).n
    (immByte op) (immAddr op)

/-- The decoder: an instruction, or the four raw fields of an illegal word, "carrying the four raw
fields for diagnostics" (R64, R66). -/
def decodeWord (op : Word) : Except Fields Instr :=
  match decode? op with
  | some i => .ok i
  | none => .error (fieldsOf op)

/-- Why a sequence of bytes spells no instruction. -/
inductive Reject where
  /-- Fewer than the two bytes every instruction has (R69). -/
  | truncated
  /-- No row of the table matches the word (R66). -/
  | unimplementedOpcode (f : Fields)
  deriving DecidableEq, Repr

/-- Decode the first instruction of a sequence of bytes, the byte at the lower address first and high
(spec/20_memory.md R47), and give back the bytes after it. Total on any bytes. -/
def decodeBytes : List Byte → Except Reject (Instr × List Byte)
  | hi :: lo :: rest =>
    match decodeWord (wordOf hi lo) with
    | .ok i => .ok (i, rest)
    | .error f => .error (.unimplementedOpcode f)
  | _ => .error .truncated

/-- Format ADDR: a major opcode and `NNN` (R62). -/
def encodeAddr (n3 : Nibble) (nnn : Addr12) : Word := n3 ++ nnn

/-- Formats REGIMM and REG: a major opcode, `X` and a byte, immediate or minor opcode (R62). -/
def encodeRegByte (n3 : Nibble) (x : Reg) (nn : Byte) : Word := n3 ++ regField x ++ nn

/-- Formats REGREG and REGREGN: a major opcode, `X`, `Y` and a nibble (R62). -/
def encodeRegReg (n3 : Nibble) (x y : Reg) (n : Nibble) : Word :=
  n3 ++ regField x ++ regField y ++ n

/-- The word of an instruction (R62, R65). -/
def encode : Instr → Word
  | .sys nnn => encodeAddr 0x0 nnn
  | .cls => 0x00E0
  | .ret => 0x00EE
  | .jp nnn => encodeAddr 0x1 nnn
  | .call nnn => encodeAddr 0x2 nnn
  | .seVxNn x nn => encodeRegByte 0x3 x nn
  | .sneVxNn x nn => encodeRegByte 0x4 x nn
  | .seVxVy x y => encodeRegReg 0x5 x y 0x0
  | .ldVxNn x nn => encodeRegByte 0x6 x nn
  | .addVxNn x nn => encodeRegByte 0x7 x nn
  | .ldVxVy x y => encodeRegReg 0x8 x y 0x0
  | .orVxVy x y => encodeRegReg 0x8 x y 0x1
  | .andVxVy x y => encodeRegReg 0x8 x y 0x2
  | .xorVxVy x y => encodeRegReg 0x8 x y 0x3
  | .addVxVy x y => encodeRegReg 0x8 x y 0x4
  | .subVxVy x y => encodeRegReg 0x8 x y 0x5
  | .shrVx x y => encodeRegReg 0x8 x y 0x6
  | .subnVxVy x y => encodeRegReg 0x8 x y 0x7
  | .shlVx x y => encodeRegReg 0x8 x y 0xE
  | .sneVxVy x y => encodeRegReg 0x9 x y 0x0
  | .ldINnn nnn => encodeAddr 0xA nnn
  | .jpV0Nnn nnn => encodeAddr 0xB nnn
  | .rndVxNn x nn => encodeRegByte 0xC x nn
  | .drwVxVyN x y n => encodeRegReg 0xD x y n
  | .skpVx x => encodeRegByte 0xE x 0x9E
  | .sknpVx x => encodeRegByte 0xE x 0xA1
  | .ldVxDt x => encodeRegByte 0xF x 0x07
  | .ldVxK x => encodeRegByte 0xF x 0x0A
  | .ldDtVx x => encodeRegByte 0xF x 0x15
  | .ldStVx x => encodeRegByte 0xF x 0x18
  | .addIVx x => encodeRegByte 0xF x 0x1E
  | .ldFVx x => encodeRegByte 0xF x 0x29
  | .ldBVx x => encodeRegByte 0xF x 0x33
  | .ldMemIVx x => encodeRegByte 0xF x 0x55
  | .ldVxMemI x => encodeRegByte 0xF x 0x65

/-- High byte of a word: the one at the lower address (spec/20_memory.md R47). -/
def highByte (op : Word) : Byte := op.extractLsb' 8 8

/-- Low byte of a word: the one at the higher address (spec/20_memory.md R47). -/
def lowByte (op : Word) : Byte := op.extractLsb' 0 8

/-- The bytes of an instruction in the order memory holds them (spec/20_memory.md R47). -/
def encodeBytes (i : Instr) : List Byte := [highByte (encode i), lowByte (encode i)]

/-- The `mnemonic` key of an instruction's row in spec/opcode_table.json (R70). -/
def mnemonicOf : Instr → String
  | .sys _ => "SYS"
  | .cls => "CLS"
  | .ret => "RET"
  | .jp _ => "JP"
  | .call _ => "CALL"
  | .seVxNn _ _ => "SE_VX_NN"
  | .sneVxNn _ _ => "SNE_VX_NN"
  | .seVxVy _ _ => "SE_VX_VY"
  | .ldVxNn _ _ => "LD_VX_NN"
  | .addVxNn _ _ => "ADD_VX_NN"
  | .ldVxVy _ _ => "LD_VX_VY"
  | .orVxVy _ _ => "OR_VX_VY"
  | .andVxVy _ _ => "AND_VX_VY"
  | .xorVxVy _ _ => "XOR_VX_VY"
  | .addVxVy _ _ => "ADD_VX_VY"
  | .subVxVy _ _ => "SUB_VX_VY"
  | .shrVx _ _ => "SHR_VX"
  | .subnVxVy _ _ => "SUBN_VX_VY"
  | .shlVx _ _ => "SHL_VX"
  | .sneVxVy _ _ => "SNE_VX_VY"
  | .ldINnn _ => "LD_I_NNN"
  | .jpV0Nnn _ => "JP_V0_NNN"
  | .rndVxNn _ _ => "RND_VX_NN"
  | .drwVxVyN _ _ _ => "DRW_VX_VY_N"
  | .skpVx _ => "SKP_VX"
  | .sknpVx _ => "SKNP_VX"
  | .ldVxDt _ => "LD_VX_DT"
  | .ldVxK _ => "LD_VX_K"
  | .ldDtVx _ => "LD_DT_VX"
  | .ldStVx _ => "LD_ST_VX"
  | .addIVx _ => "ADD_I_VX"
  | .ldFVx _ => "LD_F_VX"
  | .ldBVx _ => "LD_B_VX"
  | .ldMemIVx _ => "LD_MEM_I_VX"
  | .ldVxMemI _ => "LD_VX_MEM_I"

/-- A row of the table of R65: a word selects it when `(op & mask) = pattern`. -/
structure Row where
  mnemonic : String
  mask : Word
  pattern : Word
  deriving DecidableEq, Repr

/-- Does a word select a row? (R65) -/
def Row.selects (r : Row) (op : Word) : Bool := op &&& r.mask == r.pattern

/-- The 35 rows of R65, CLS and RET before SYS (R64); the masks and patterns are the table's. -/
def opcodeTable : List Row :=
  [⟨"CLS", 0xFFFF, 0x00E0⟩, ⟨"RET", 0xFFFF, 0x00EE⟩, ⟨"SYS", 0xF000, 0x0000⟩,
   ⟨"JP", 0xF000, 0x1000⟩, ⟨"CALL", 0xF000, 0x2000⟩, ⟨"SE_VX_NN", 0xF000, 0x3000⟩,
   ⟨"SNE_VX_NN", 0xF000, 0x4000⟩, ⟨"SE_VX_VY", 0xF00F, 0x5000⟩, ⟨"LD_VX_NN", 0xF000, 0x6000⟩,
   ⟨"ADD_VX_NN", 0xF000, 0x7000⟩] ++
  [⟨"LD_VX_VY", 0xF00F, 0x8000⟩, ⟨"OR_VX_VY", 0xF00F, 0x8001⟩, ⟨"AND_VX_VY", 0xF00F, 0x8002⟩,
   ⟨"XOR_VX_VY", 0xF00F, 0x8003⟩, ⟨"ADD_VX_VY", 0xF00F, 0x8004⟩, ⟨"SUB_VX_VY", 0xF00F, 0x8005⟩,
   ⟨"SHR_VX", 0xF00F, 0x8006⟩, ⟨"SUBN_VX_VY", 0xF00F, 0x8007⟩, ⟨"SHL_VX", 0xF00F, 0x800E⟩] ++
  [⟨"SNE_VX_VY", 0xF00F, 0x9000⟩, ⟨"LD_I_NNN", 0xF000, 0xA000⟩, ⟨"JP_V0_NNN", 0xF000, 0xB000⟩,
   ⟨"RND_VX_NN", 0xF000, 0xC000⟩, ⟨"DRW_VX_VY_N", 0xF000, 0xD000⟩, ⟨"SKP_VX", 0xF0FF, 0xE09E⟩,
   ⟨"SKNP_VX", 0xF0FF, 0xE0A1⟩] ++
  [⟨"LD_VX_DT", 0xF0FF, 0xF007⟩, ⟨"LD_VX_K", 0xF0FF, 0xF00A⟩, ⟨"LD_DT_VX", 0xF0FF, 0xF015⟩,
   ⟨"LD_ST_VX", 0xF0FF, 0xF018⟩, ⟨"ADD_I_VX", 0xF0FF, 0xF01E⟩, ⟨"LD_F_VX", 0xF0FF, 0xF029⟩,
   ⟨"LD_B_VX", 0xF0FF, 0xF033⟩, ⟨"LD_MEM_I_VX", 0xF0FF, 0xF055⟩, ⟨"LD_VX_MEM_I", 0xF0FF, 0xF065⟩]

/-- The mnemonic of the first row a word selects (R64). -/
def tableMnemonic (op : Word) : Option String :=
  (opcodeTable.find? (fun r => r.selects op)).map Row.mnemonic

/-- The word whose bits are `w`, as spec/opcode_table.json numbers them: one 16-bit word, bit 0 its
least significant; every bit above `nbits` is 0. -/
def tableWord (nbits w : Nat) : Word := BitVec.ofNat 16 (w % 2 ^ nbits)

/-- The instruction the decoder reads from that word, laid out high byte first (R47). -/
def decodeTableWord (nbits w : Nat) : Option Instr :=
  match decodeBytes [highByte (tableWord nbits w), lowByte (tableWord nbits w)] with
  | .ok (i, _) => some i
  | .error _ => none

end Sys2Proof
end

