-- ==== Sys2Proof/Config.lean ====
section
/-!
DEFINITION. What is fixed for the machine: the sizes the source itself states
(spec/00_scope.md R4, the rows with status "source §3"), the display size, which is part of the
type of the framebuffer, and the one value nothing fixes, the byte of the random source.
The parameters whose value is the spec's decision stand in Machine/Params.lean.
-/

namespace Sys2Proof.Config

/-- MEM_SIZE: addresses 0x000 to 0xFFF (R4, R22). -/
def memSize : Nat := 4096

/-- NKEYS (R4, R24). -/
def numKeys : Nat := 16

/-- FONT_GLYPHS (R4). -/
def fontGlyphs : Nat := 16

/-- GLYPH_BYTES (R4). -/
def glyphBytes : Nat := 5

/-- Every instruction is two bytes long (R4, R6, R69). -/
def instrBytes : Nat := 2

/-- DISPLAY_W: columns of the display (R4, R23; the spec's decision D5). -/
def displayW : Nat := 64

/-- DISPLAY_H: rows of the display (R4, R23; the spec's decision D5). -/
def displayH : Nat := 32

/-- FREE VALUE (log entry 1). The byte the random source yields at its `n`-th free draw: "a free
input of that step, under no law" (spec/46_random.md R166). It has no body, so that nothing can be
proved of its value and every claim holds whatever it is. -/
opaque drawnByte (n : Nat) : Byte

end Sys2Proof.Config
end

