-- ==== Sys2Proof/Machine/Params.lean ====
section
/-!
DEFINITION. The parameters of the machine whose value is the spec's own decision, each a named constant
(spec/00_scope.md R4; log entries 4 and 5).
-/

namespace Sys2Proof.Machine

/-- PROGRAM_START (R4; the spec's decision D2). -/
def programStart : Nat := 0x200

/-- PROGRAM_CAPACITY: "memory size minus program-start offset" (R4). -/
def programCapacity : Nat := Config.memSize - programStart

/-- FONT_BASE (R4; the spec's decision D3). -/
def fontBase : Nat := 0x050

/-- STACK_DEPTH (R4, R19; the spec's decision D12). -/
def stackDepth : Nat := 16

/-- The value of `dirty` after reset (R25, R30; the spec's decision D20). -/
def dirtyAtReset : Bool := true

/-- FONT_TABLE: 16 glyphs of 5 rows (spec/20_memory.md R45; the spec's decision D4). -/
def fontTable : List Byte :=
  [0xF0, 0x90, 0x90, 0x90, 0xF0] ++ [0x20, 0x60, 0x20, 0x20, 0x70] ++
  [0xF0, 0x10, 0xF0, 0x80, 0xF0] ++ [0xF0, 0x10, 0xF0, 0x10, 0xF0] ++
  [0x90, 0x90, 0xF0, 0x10, 0x10] ++ [0xF0, 0x80, 0xF0, 0x10, 0xF0] ++
  [0xF0, 0x80, 0xF0, 0x90, 0xF0] ++ [0xF0, 0x10, 0x20, 0x40, 0x40] ++
  [0xF0, 0x90, 0xF0, 0x90, 0xF0] ++ [0xF0, 0x90, 0xF0, 0x10, 0xF0] ++
  [0xF0, 0x90, 0xF0, 0x90, 0x90] ++ [0xE0, 0x90, 0xE0, 0x90, 0xE0] ++
  [0xF0, 0x80, 0x80, 0x80, 0xF0] ++ [0xE0, 0x90, 0x90, 0x90, 0xE0] ++
  [0xF0, 0x80, 0xF0, 0x80, 0xF0] ++ [0xF0, 0x80, 0xF0, 0x80, 0x80]

end Sys2Proof.Machine
end

