-- ==== Sys2Proof/Machine/Memory.lean ====
section
/-!
DEFINITION. The memory `mem` (spec/20_memory.md): 4096 cells of one byte (R40), held as the list of the
cells that differ from their reset contents. Addresses rise strictly and no cell holds what an
unlisted address reads as, so that equal memories are equal lists. Every wider access of the
machine is a sequence of the byte accesses of this file (R49).
-/

namespace Sys2Proof.Machine

/-- The listed cells, by rising address. -/
abbrev Memory := List Host.Cell

/-- What an unlisted address reads as: its contents after reset, a font byte in the font region and
zero elsewhere (spec/10_state.md R30, spec/20_memory.md R41, R45). -/
def Memory.background (a : Nat) : Byte :=
  if fontBase ≤ a ∧ a < fontBase + fontTable.length then fontTable.getD (a - fontBase) 0 else 0

/-- The byte at an address (R42, for an address of the space). -/
def Memory.read : Memory → Nat → Byte
  | [], a => Memory.background a
  | (k, b) :: rest, a => if k = a then b else Memory.read rest a

/-- Put a cell in its place among cells of rising addresses. -/
def Memory.insertCell : Memory → Nat → Byte → Memory
  | [], a, b => [(a, b)]
  | (k, c) :: rest, a, b =>
    if a < k then (a, b) :: (k, c) :: rest else (k, c) :: Memory.insertCell rest a b

/-- The cells but for the one at an address. -/
def Memory.dropCell (m : Memory) (a : Nat) : Memory := m.filter (fun c => c.1 != a)

/-- `mem[a] <- b` (R43, for an address of the space): the old cell goes, the new one is listed if it
differs from its background, so that the canonical form is kept. -/
def Memory.write (m : Memory) (a : Nat) (b : Byte) : Memory :=
  if b = Memory.background a then m.dropCell a else (m.dropCell a).insertCell a b

/-- Write the bytes of a list at `a`, `a + 1`, ... in that order. -/
def Memory.writeList : Memory → Nat → List Byte → Memory
  | m, _, [] => m
  | m, a, b :: bs => Memory.writeList (m.write a b) (a + 1) bs

/-- The canonical form above an address: addresses strictly rising from `low`, all of the space, and no
cell equal to its background. -/
def Memory.wfFrom : Nat → Memory → Bool
  | _, [] => true
  | low, (k, b) :: rest =>
    decide (low ≤ k) && decide (k < Config.memSize) && b != Memory.background k &&
      Memory.wfFrom (k + 1) rest

/-- The canonical form. -/
def Memory.wf (m : Memory) : Bool := Memory.wfFrom 0 m

end Sys2Proof.Machine
end

