-- ==== Sys2Proof/Machine/State.lean ====
section
/-!
DEFINITION. The whole state of the engine (spec/10_state.md: "the whole state of the block is the
tuple ... Nothing else is state"), the fault values, and the state after reset (R30).
-/

namespace Sys2Proof.Machine

/-- What kind of access an `AccessDefect` reports (spec/60_exceptions.md R191). -/
inductive AccessKind where
  /-- The instruction fetch (R46). -/
  | fetch
  /-- The sprite bytes of DXYN (R122). -/
  | draw
  /-- FX33 and FX55 (R154, R155). -/
  | store
  /-- FX65 (R156). -/
  | load
  /-- The key number of EX9E and EXA1 (R147). -/
  | key
  deriving DecidableEq, Repr

/-- The fault values of spec/60_exceptions.md R191. The spec describes all that a fault does, the latch
and the `pc` (R192 to R194), so a faulting step is a NEXT state whose latch `State.fault` holds one of
these; no definition of the model answers `Outcome.fault` (log entry 2). -/
inductive Fault where
  /-- Raised by 00EE on an empty stack (R83, R195). Safe: the spec's own fault. -/
  | stackUnderflow
  /-- Raised by `step` for a word of no row, with its four nibbles (R66, R195). Safe: the spec's own fault. -/
  | unimplementedOpcode (n3 x y n : Nibble)
  /-- Raised by 2NNN with STACK_DEPTH entries stacked (R84, R196). Safe: it errs toward more faults than
  an unbounded stack has. -/
  | stackOverflow
  /-- Raised by `step` for a fetch, by DXYN, FX33, FX55, FX65 for a range, and by EX9E, EXA1 for a key
  number (R197). Safe: an out-of-range access never yields a value and never wraps. -/
  | accessDefect (kind : AccessKind) (addr : Nat)
  deriving DecidableEq, Repr

/-- Why a step has no meaning. -/
inductive Refusal where
  /-- An instruction with no meaning yet, by its mnemonic: answered by `exec` alone, and by no arm of
  it now. Safe: nothing is claimed of a refused instruction. -/
  | notModelled (mnemonic : String)
  deriving DecidableEq, Repr

/-- The display: 32 rows of 64 cells, row 0 the top, column 0 the left; `true` is set
(spec/10_state.md R23). -/
abbrev Framebuffer := Vector (Vector Bool 64) 32

/-- The state of the engine (spec/10_state.md). -/
structure State where
  /-- `V0` to `VF` (R10, R12). -/
  v : Vector Byte 16
  /-- `I` (R15). -/
  i : Word
  /-- `pc` (R16, R17). -/
  pc : Word
  /-- The return addresses, the LAST PUSHED FIRST: the spec writes the top last (R18, R19). -/
  stack : List Word
  /-- `DT` (R20). -/
  dt : Byte
  /-- `ST` (R20, R21). -/
  st : Byte
  /-- `mem` (R22). -/
  mem : Memory
  /-- `fb` (R23). -/
  fb : Framebuffer
  /-- `key` (R24). -/
  key : Vector Bool 16
  /-- `dirty` (R25). -/
  dirty : Bool
  /-- `fault`: `none`, or the latched fault value (R26). -/
  fault : Option Fault
  /-- THE MODEL'S OWN (log entry 1): the bytes the environment has supplied for the next draws of CXNN,
  "an explicit input stream" (spec/46_random.md R166). -/
  drawInputs : List Byte
  /-- THE MODEL'S OWN (log entry 1): how many draws have taken a free value `Config.drawnByte`. -/
  drawCount : Nat
  deriving DecidableEq, Repr

/-- The state after reset: the table of spec/10_state.md R30. Memory lists nothing: it reads as zero
with the font at FONT_BASE. The last two fields are the model's own (log entry 1). -/
def State.reset : State where
  v := Vector.replicate 16 0
  i := 0
  pc := BitVec.ofNat 16 programStart
  stack := []
  dt := 0
  st := 0
  mem := []
  fb := Vector.replicate 32 (Vector.replicate 64 false)
  key := Vector.replicate 16 false
  dirty := dirtyAtReset
  fault := none
  drawInputs := []
  drawCount := 0

end Sys2Proof.Machine
end

