-- ==== Sys2Proof/Machine/Ops.lean ====
section
/-!
DEFINITION. The named operations over registers, memory, stack, display, keypad and timers, the fetch,
and the raising of a fault. Every read and write of the machine goes through these.
-/

namespace Sys2Proof.Machine

/-- What a step or an instruction answers. -/
abbrev Result := Host.Outcome State Fault Refusal

/-- `V[r]` (spec/10_state.md R10). -/
def State.reg (s : State) (r : Reg) : Byte := s.v[r.val]

/-- `V[r] <- b` (R10): every register, `VF` included, holds what was last written. -/
def State.setReg (s : State) (r : Reg) (b : Byte) : State := { s with v := s.v.set r.val b }

/-- `V[first]`, `V[first + 1]`, ... loaded with the bytes of a list, in that order (for FX65, R156). -/
def loadRegs : Vector Byte 16 → Nat → List Byte → Vector Byte 16
  | v, _, [] => v
  | v, first, b :: bs => loadRegs (v.setIfInBounds first b) (first + 1) bs

/-- `I <- a` (R15). -/
def State.setIndex (s : State) (a : Word) : State := { s with i := a }

/-- `pc <- a`, modulo 65536 and never masked to 12 bits (R16, R17). -/
def State.setPc (s : State) (a : Word) : State := { s with pc := a }

/-- `pc <- pc + 2`: the advance of the step (spec/30_encoding.md R60) and the extra 2 of a taken skip. -/
def State.advance (s : State) : State := s.setPc (s.pc + 2)

/-- The end of an instruction that completed. -/
def complete (s : State) : Result := .next s

/-- `raise F` (spec/60_exceptions.md R192): the fault is latched and nothing else is written. The `pc`
stays where it is: past the instruction, or at the fetch address for a fetch fault (R194). There
is no trap entry (R201) and no return from a fault but reset (R202, `State.restart`). -/
def raise (f : Fault) (s : State) : Result := .next { s with fault := some f }

/-- The `reset` transaction (spec/48_host_operations.md R171): every piece of state at its reset value
"regardless of prior state", and the only way out of a fault (R193, R202). The random source is no
part of the state and "reset does not touch it" (spec/46_random.md R166). -/
def State.restart (s : State) : State :=
  { State.reset with drawInputs := s.drawInputs, drawCount := s.drawCount }

/-- The fault of an access to `count` cells from the address `first`, a natural number never reduced:
`none` if all lie in memory, else the lowest address out of range (spec/20_memory.md R44). -/
def rangeFault (kind : AccessKind) (first count : Nat) : Option Fault :=
  if 0 < count ∧ Config.memSize < first + count then
    some (.accessDefect kind (max first Config.memSize))
  else none

/-- `MemRead(a, 1)` for an address that was checked (R42). -/
def State.readByte (s : State) (a : Nat) : Byte := s.mem.read a

/-- `MemRead` at `a`, `a + 1`, ..., `count` times. -/
def State.readBytes (s : State) (a count : Nat) : List Byte :=
  (List.range count).map (fun k => s.readByte (a + k))

/-- `MemWrite` of the bytes at `a`, `a + 1`, ... for addresses that were checked (R43). -/
def State.writeBytes (s : State) (a : Nat) (bs : List Byte) : State :=
  { s with mem := s.mem.writeList a bs }

/-- The instruction fetch: two bytes at `pc` and `pc + 1`, of any parity, the first one high, or the
fetch fault (R46 to R48). -/
def fetch (s : State) : Except Fault Word :=
  match rangeFault .fetch s.pc.toNat Config.instrBytes with
  | some f => .error f
  | none => .ok (wordOf (s.readByte s.pc.toNat) (s.readByte (s.pc.toNat + 1)))

/-- The fault of an illegal word, with its four raw fields (spec/30_encoding.md R66). -/
def illegalFault (f : Fields) : Fault := .unimplementedOpcode f.n3 f.x f.y f.n

/-- `push(stack, a)` (spec/10_state.md R18). -/
def State.push (s : State) (a : Word) : State := { s with stack := a :: s.stack }

/-- `len(stack) = STACK_DEPTH` (R19, R84). -/
def State.stackFull (s : State) : Bool := s.stack.length == stackDepth

/-- `pc <- pc + 2` if the condition holds: every conditional skip (spec/40_control_flow.md R90). -/
def State.skipIf (s : State) (c : Bool) : State := if c then s.advance else s

/-- `key[k] = 1` (R24); there is no flag past 15. -/
def State.keyDown (s : State) (k : Nat) : Bool := s.key[k]?.getD false

/-- `key[n] <- b` for `n <= 15`, nothing for another `n` (spec/44_keypad.md R145, R146). -/
def State.setKey (s : State) (n : Nat) (b : Bool) : State :=
  if n < Config.numKeys then { s with key := s.key.setIfInBounds n b } else s

/-- The least pressed key (spec/44_keypad.md R143; the spec's decision D15). -/
def State.leastKey (s : State) : Option Nat := (List.range Config.numKeys).find? s.keyDown

/-- `Draw8()` (spec/46_random.md R166): the byte the environment supplied, or a free value. -/
def State.drawnByte (s : State) : Byte :=
  match s.drawInputs with
  | b :: _ => b
  | [] => Config.drawnByte s.drawCount

/-- The state after one draw: the supplied byte is used up, or the count of free draws advanced. -/
def State.afterDraw (s : State) : State :=
  match s.drawInputs with
  | _ :: rest => { s with drawInputs := rest }
  | [] => { s with drawCount := s.drawCount + 1 }

/-- One step of a counter that saturates at zero (spec/43_timers.md R134). -/
def countDown (t : Byte) : Byte := if t = 0 then 0 else t - 1

/-- `fb[y][x]`; a cell outside the display does not exist and reads clear (R23). -/
def pixel (fb : Framebuffer) (y x : Nat) : Bool :=
  match fb[y]? with
  | some row => row[x]?.getD false
  | none => false

/-- `fb[y][x] <- fb[y][x] ^ 1` (spec/42_display.md R122). -/
def flipPixel (fb : Framebuffer) (y x : Nat) : Framebuffer :=
  match fb[y]? with
  | some row => fb.setIfInBounds y (row.setIfInBounds x (!pixel fb y x))
  | none => fb

/-- The display with every cell clear (R121, R30). -/
def clearFb : Framebuffer := Vector.replicate 32 (Vector.replicate 64 false)

/-- One pixel of a sprite: a column past the right edge is clipped; a set bit flips its cell and collides
if the cell was set (R122, R124). The pair is the display and the collision so far. -/
def drawPixel (y x : Nat) (bit : Bool) (acc : Framebuffer × Bool) : Framebuffer × Bool :=
  if x < Config.displayW ∧ bit = true then (flipPixel acc.1 y x, acc.2 || pixel acc.1 y x) else acc

/-- One row of a sprite, most significant bit leftmost: a row past the bottom edge is clipped (R122). -/
def drawRow (y x0 : Nat) (b : Byte) (acc : Framebuffer × Bool) : Framebuffer × Bool :=
  if y < Config.displayH then
    (List.range 8).foldl (fun acc c => drawPixel y (x0 + c) (b.getLsbD (7 - c)) acc) acc
  else acc

/-- The rows of a sprite from row `y` down (R122). -/
def drawRows : Nat → Nat → List Byte → Framebuffer × Bool → Framebuffer × Bool
  | _, _, [], acc => acc
  | y, x0, b :: bs, acc => drawRows (y + 1) x0 bs (drawRow y x0 b acc)

end Sys2Proof.Machine
end

