-- ==== Sys2Proof/Machine/Flags.lean ====
section
/-!
DEFINITION. The flag values and the order of the two writes of a flag-writing instruction
(spec/10_state.md R13, R14; spec/41_alu.md R112, R113). A flag is a full byte, 0x00 or 0x01, written over
the old one.
-/

namespace Sys2Proof.Machine

/-- A flag as the byte written to `VF` (R12, R113). -/
def flagByte (b : Bool) : Byte := if b then 1 else 0

/-- Carry: "1 if the true sum exceeds 255 (carry), else 0" (R107). -/
def carryOut (a b : Byte) : Bool := decide (255 < a.toNat + b.toNat)

/-- No borrow of `a - b`: "1 if `a >= b` (no borrow), 0 if a borrow occurred" (R108, R110). -/
def noBorrow (a b : Byte) : Bool := decide (b.toNat ≤ a.toNat)

/-- The bit a right shift puts out, `a[0]` (R109). -/
def lowBit (a : Byte) : Bool := a.getLsbD 0

/-- The bit a left shift puts out, `a[7]` (R111). -/
def highBit (a : Byte) : Bool := a.getLsbD 7

/-- `VF <- flag` (R13). -/
def State.setFlag (s : State) (flag : Bool) : State := s.setReg .flag (flagByte flag)

/-- "The result is written to `VX`; then the flag is written to `VF`" (R14; the spec's decision D9): with
`X = 15` the flag wins. -/
def State.writeWithFlag (s : State) (x : Reg) (result : Byte) (flag : Bool) : State :=
  (s.setReg x result).setFlag flag

end Sys2Proof.Machine
end

