-- ==== Sys2Proof/Machine/Alu.lean ====
section
/-!
DEFINITION. The register and ALU instructions (spec/41_alu.md). None faults, none touches anything but
registers (R100); operands are read before anything is written. Arithmetic is modulo 256 (R112).
-/

namespace Sys2Proof.Machine

/-- LD VX, NN (R101). -/
def execLdVxNn (x : Reg) (nn : Byte) (s : State) : Result := complete (s.setReg x nn)

/-- ADD VX, NN: wraps, writes no flag (R102). -/
def execAddVxNn (x : Reg) (nn : Byte) (s : State) : Result := complete (s.setReg x (s.reg x + nn))

/-- LD VX, VY (R103). -/
def execLdVxVy (x y : Reg) (s : State) : Result := complete (s.setReg x (s.reg y))

/-- OR VX, VY (R104). -/
def execOrVxVy (x y : Reg) (s : State) : Result := complete (s.setReg x (s.reg x ||| s.reg y))

/-- AND VX, VY (R105). -/
def execAndVxVy (x y : Reg) (s : State) : Result := complete (s.setReg x (s.reg x &&& s.reg y))

/-- XOR VX, VY (R106). -/
def execXorVxVy (x y : Reg) (s : State) : Result := complete (s.setReg x (s.reg x ^^^ s.reg y))

/-- ADD VX, VY with carry (R107). -/
def execAddVxVy (x y : Reg) (s : State) : Result :=
  complete (s.writeWithFlag x (s.reg x + s.reg y) (carryOut (s.reg x) (s.reg y)))

/-- SUB VX, VY with no-borrow: minuend `VX` (R108). -/
def execSubVxVy (x y : Reg) (s : State) : Result :=
  complete (s.writeWithFlag x (s.reg x - s.reg y) (noBorrow (s.reg x) (s.reg y)))

/-- SUBN VX, VY with no-borrow: minuend `VY` (R110). -/
def execSubnVxVy (x y : Reg) (s : State) : Result :=
  complete (s.writeWithFlag x (s.reg y - s.reg x) (noBorrow (s.reg y) (s.reg x)))

/-- SHR VX: in place, by one; `Y` takes no part (R109, R68). -/
def execShrVx (x _y : Reg) (s : State) : Result :=
  complete (s.writeWithFlag x (s.reg x >>> 1) (lowBit (s.reg x)))

/-- SHL VX: in place, by one; `Y` takes no part (R111, R68). -/
def execShlVx (x _y : Reg) (s : State) : Result :=
  complete (s.writeWithFlag x (s.reg x <<< 1) (highBit (s.reg x)))

end Sys2Proof.Machine
end

