-- ==== Sys2Proof/Machine/Operands.lean ====
section
/-!
DEFINITION. The operand forms: the zero-extended immediates and registers (spec/30_encoding.md R63), the
one addressing mode "`I` plus a non-negative offset" (spec/45_index_memory.md R150), the address of a
glyph, the decimal digits of a byte, the origin of a sprite, the registers `V0` to `VX`.
-/

namespace Sys2Proof.Machine

/-- `zext_16(NNN)`: an absolute address, not scaled and not relative (R63). -/
def addrOf (nnn : Addr12) : Word := nnn.setWidth 16

/-- `zext_16(V[X])` (R85, R152). -/
def State.regWord (s : State) (x : Reg) : Word := (s.reg x).setWidth 16

/-- The natural number `I`, the base of every data access (spec/20_memory.md R44: never reduced). -/
def State.base (s : State) : Nat := s.i.toNat

/-- The number of registers in `V0` to `VX`: `X + 1`, 1 to 16 (R155, R156). -/
def regCount (x : Reg) : Nat := x.val + 1

/-- The values of `V0` to `VX` in order (R155). -/
def State.regsUpTo (s : State) (x : Reg) : List Byte := s.v.toList.take (regCount x)

/-- `FONT_BASE + d * 5`, where `d` is the low nibble of the value (R153). -/
def glyphAddr (b : Byte) : Word := BitVec.ofNat 16 (fontBase + b.toNat % 16 * Config.glyphBytes)

/-- The hundreds, tens and ones digits of a byte as binary numbers (R154). -/
def decimalDigits (b : Byte) : List Byte :=
  [BitVec.ofNat 8 (b.toNat / 100), BitVec.ofNat 8 (b.toNat / 10 % 10), BitVec.ofNat 8 (b.toNat % 10)]

/-- `V[X] mod DISPLAY_W`: the column of the sprite's left edge (R122, R123). -/
def State.originX (s : State) (x : Reg) : Nat := (s.reg x).toNat % Config.displayW

/-- `V[Y] mod DISPLAY_H`: the row of the sprite's top edge (R122, R123). -/
def State.originY (s : State) (y : Reg) : Nat := (s.reg y).toNat % Config.displayH

/-- The key number of EX9E and EXA1: the value of the register, not masked (R141, R147). -/
def State.keyNumber (s : State) (x : Reg) : Nat := (s.reg x).toNat

/-- The fault of a key number above 15 (R147; the spec's decision D14). -/
def keyFault (k : Nat) : Option Fault :=
  if k < Config.numKeys then none else some (.accessDefect .key k)

end Sys2Proof.Machine
end

