-- ==== Sys2Proof/Machine/ControlFlow.lean ====
section
/-!
DEFINITION. The control flow instructions (spec/40_control_flow.md). Each meaning sees `pc = pc0 + 2`
(spec/30_encoding.md R60) and writes nothing but `pc` and the stack (R80).
-/

namespace Sys2Proof.Machine

/-- SYS: the deliberate no-op (R81). -/
def execSys (_nnn : Addr12) (s : State) : Result := complete s

/-- JP: an absolute overwrite of `pc` (R82). -/
def execJp (nnn : Addr12) (s : State) : Result := complete (s.setPc (addrOf nnn))

/-- RET: pop into `pc`, or StackUnderflow (R83). -/
def execRet (s : State) : Result :=
  match s.stack with
  | [] => raise .stackUnderflow s
  | a :: rest => complete { s with pc := a, stack := rest }

/-- CALL: push the advanced `pc` and jump, or StackOverflow (R84). -/
def execCall (nnn : Addr12) (s : State) : Result :=
  if s.stackFull then raise .stackOverflow s else complete ((s.push s.pc).setPc (addrOf nnn))

/-- JP V0: `pc <- NNN + V0`, not masked (R85). -/
def execJpV0Nnn (nnn : Addr12) (s : State) : Result :=
  complete (s.setPc (addrOf nnn + s.regWord 0))

/-- SE VX, NN (R86). -/
def execSeVxNn (x : Reg) (nn : Byte) (s : State) : Result := complete (s.skipIf (s.reg x == nn))

/-- SNE VX, NN (R87). -/
def execSneVxNn (x : Reg) (nn : Byte) (s : State) : Result := complete (s.skipIf (s.reg x != nn))

/-- SE VX, VY (R88). -/
def execSeVxVy (x y : Reg) (s : State) : Result := complete (s.skipIf (s.reg x == s.reg y))

/-- SNE VX, VY (R89). -/
def execSneVxVy (x y : Reg) (s : State) : Result := complete (s.skipIf (s.reg x != s.reg y))

end Sys2Proof.Machine
end

