-- ==== Sys2Proof/Machine/Display.lean ====
section
/-!
DEFINITION. The display instructions (spec/42_display.md).
-/

namespace Sys2Proof.Machine

/-- CLS: every cell clear, `dirty` set, no flag (R121). -/
def execCls (s : State) : Result := complete { s with fb := clearFb, dirty := true }

/-- The display and the collision of a sprite of `n` rows from memory at `I`, its origin wrapped and its
edges clipped (R122 to R124). -/
def State.drawSprite (s : State) (x y : Reg) (n : Nibble) : Framebuffer × Bool :=
  drawRows (s.originY y) (s.originX x) (s.readBytes s.base n.toNat) (s.fb, false)

/-- DRW: the range of all `N` rows is checked first; then the sprite is drawn, the collision goes to
`VF` and `dirty` is set (R122). -/
def execDrwVxVyN (x y : Reg) (n : Nibble) (s : State) : Result :=
  match rangeFault .draw s.base n.toNat with
  | some f => raise f s
  | none =>
    complete
      ({ s with fb := (s.drawSprite x y n).1, dirty := true }.setFlag (s.drawSprite x y n).2)

end Sys2Proof.Machine
end

