-- ==== Sys2Proof/Machine/IndexMemory.lean ====
section
/-!
DEFINITION. The index register and memory instructions (spec/45_index_memory.md). The range of an access
is checked before anything is written (spec/20_memory.md R44); `I` is never changed by a load or a
store (R150).
-/

namespace Sys2Proof.Machine

/-- LD I, NNN (R151). -/
def execLdINnn (nnn : Addr12) (s : State) : Result := complete (s.setIndex (addrOf nnn))

/-- ADD I, VX: modulo 65536, no flag (R152). -/
def execAddIVx (x : Reg) (s : State) : Result := complete (s.setIndex (s.i + s.regWord x))

/-- LD F, VX (R153). -/
def execLdFVx (x : Reg) (s : State) : Result := complete (s.setIndex (glyphAddr (s.reg x)))

/-- A store of a list of bytes at `I`, or AccessDefect(store) (R154, R155). -/
def storeAtIndex (bs : List Byte) (s : State) : Result :=
  match rangeFault .store s.base bs.length with
  | some f => raise f s
  | none => complete (s.writeBytes s.base bs)

/-- LD B, VX: the three decimal digits (R154). -/
def execLdBVx (x : Reg) (s : State) : Result := storeAtIndex (decimalDigits (s.reg x)) s

/-- LD [I], VX: `V0` to `VX` (R155). -/
def execLdMemIVx (x : Reg) (s : State) : Result := storeAtIndex (s.regsUpTo x) s

/-- LD VX, [I]: `V0` to `VX`, or AccessDefect(load) (R156). -/
def execLdVxMemI (x : Reg) (s : State) : Result :=
  match rangeFault .load s.base (regCount x) with
  | some f => raise f s
  | none => complete { s with v := loadRegs s.v 0 (s.readBytes s.base (regCount x)) }

end Sys2Proof.Machine
end

