-- ==== Sys2Proof/Machine/Keypad.lean ====
section
/-!
DEFINITION. The keypad instructions and the two key transactions (spec/44_keypad.md).
-/

namespace Sys2Proof.Machine

/-- SKP: skip if key `VX` is pressed now; a key number above 15 faults (R141, R147). -/
def execSkpVx (x : Reg) (s : State) : Result :=
  match keyFault (s.keyNumber x) with
  | some f => raise f s
  | none => complete (s.skipIf (s.keyDown (s.keyNumber x)))

/-- SKNP: skip if key `VX` is not pressed now; a key number above 15 faults (R142, R147). -/
def execSknpVx (x : Reg) (s : State) : Result :=
  match keyFault (s.keyNumber x) with
  | some f => raise f s
  | none => complete (s.skipIf (!s.keyDown (s.keyNumber x)))

/-- LD VX, K: the least pressed key, or `pc` back by 2 so that the same instruction is fetched next
(R143, R144): a busy wait made of ordinary steps, never a stuck state. -/
def execLdVxK (x : Reg) (s : State) : Result :=
  match s.leastKey with
  | some k => complete (s.setReg x (BitVec.ofNat 8 k))
  | none => complete (s.setPc (s.pc - 2))

/-- The transaction `press_key(n)` (R145). -/
def State.pressKey (s : State) (n : Nat) : State := s.setKey n true

/-- The transaction `unpress_key(n)` (R146). -/
def State.unpressKey (s : State) (n : Nat) : State := s.setKey n false

end Sys2Proof.Machine
end

