-- ==== Sys2Proof/Machine/Random.lean ====
section
/-!
DEFINITION. The random instruction (spec/46_random.md).
-/

namespace Sys2Proof.Machine

/-- RND: `V[X] <- r & NN` for the drawn byte `r`, a free input of the step (R166, R167; log entry 1). -/
def execRndVxNn (x : Reg) (nn : Byte) (s : State) : Result :=
  complete (s.afterDraw.setReg x (s.drawnByte &&& nn))

end Sys2Proof.Machine
end

