-- ==== Sys2Proof/Machine/Timers.lean ====
section
/-!
DEFINITION. The timer instructions and the countdown (spec/43_timers.md).
-/

namespace Sys2Proof.Machine

/-- LD VX, DT (R131). -/
def execLdVxDt (x : Reg) (s : State) : Result := complete (s.setReg x s.dt)

/-- LD DT, VX (R132). -/
def execLdDtVx (x : Reg) (s : State) : Result := complete { s with dt := s.reg x }

/-- LD ST, VX (R133). -/
def execLdStVx (x : Reg) (s : State) : Result := complete { s with st := s.reg x }

/-- The transaction `tick_timers()`: each timer down by one on its own, saturating at zero, also when the
engine is faulted (R134). -/
def State.tickTimers (s : State) : State := { s with dt := countDown s.dt, st := countDown s.st }

end Sys2Proof.Machine
end

