-- ==== Sys2Proof/Machine/Step.lean ====
section
/-!
DEFINITION. One `step()` (spec/30_encoding.md R60): the latch, the fetch with its bound, the advance of
`pc`, the decode, the instruction; the order of the checks is that of spec/60_exceptions.md R200.
-/

namespace Sys2Proof.Machine

/-- One step. A latched engine changes nothing (R193); a fetch fault leaves `pc` (R194); an illegal word
faults after the advance (R66). -/
def step (s : State) : Host.Outcome State Fault Refusal :=
  match s.fault with
  | some _ => complete s
  | none =>
    match fetch s with
    | .error f => raise f s
    | .ok op =>
      match decodeWord op with
      | .error f => raise (illegalFault f) s.advance
      | .ok i => exec i s.advance

/-- `s` with the word of a table row stored where `step` fetches next, high byte first, and with what that
fetch needs: a clear latch, and a `pc` that can be fetched from, the program start if it is not
(log entry 3). From reset only the two bytes change. -/
def State.withFetchWord (s : State) (nbits w : Nat) : State :=
  let pc := if s.pc.toNat + 1 < Config.memSize then s.pc else BitVec.ofNat 16 programStart
  { s with fault := none, pc := pc }.writeBytes pc.toNat
    [highByte (tableWord nbits w), lowByte (tableWord nbits w)]

end Sys2Proof.Machine
end

