-- ==== Sys2Proof/Machine/Transactions.lean ====
section
/-!
DEFINITION. The host interface (spec/48_host_operations.md): the closed set of transactions that are the
only way anything outside the block changes or observes its state (R170, R179). Each is atomic; the
host picks the next one, in any order (R180).
-/

namespace Sys2Proof.Machine

/-- The transactions of R170 with their inputs. -/
inductive Transaction where
  /-- Reset, also construction (R171). -/
  | reset
  /-- Load a blob of any length (R173, R174). -/
  | load (bytes : List Byte)
  /-- One instruction; the byte is the one drawn if it is CXNN (R172). -/
  | step (drawn : Byte)
  /-- One countdown of each timer (R134). -/
  | tickTimers
  /-- Press a key (R145). -/
  | pressKey (n : Nat)
  /-- Release a key (R146). -/
  | unpressKey (n : Nat)
  /-- Read the display (R177). -/
  | getDisplay
  /-- Read the dirty flag (R178). -/
  | dirtyQuery
  /-- Clear the dirty flag (R178). -/
  | dirtyClear
  deriving DecidableEq, Repr

/-- The responses of R170. -/
inductive Response where
  | none
  | ok
  | capacityError
  | faulted (f : Fault)
  | display (cells : List Bool)
  | dirty (b : Bool)
  deriving DecidableEq, Repr

/-- Does a blob of this length fit the program region? (R173) -/
def fitsProgram (bytes : List Byte) : Bool := decide (bytes.length ≤ programCapacity)

/-- `load(bytes)`: all the bytes at PROGRAM_START upward, or nothing at all (R173, R174). -/
def State.loadProgram (s : State) (bytes : List Byte) : State :=
  if fitsProgram bytes then s.writeBytes programStart bytes else s

/-- `get_display()`: the cells in row-major order, `fb[y][x]` at `y * 64 + x` (R177). -/
def State.displayCells (s : State) : List Bool := s.fb.toList.flatMap Vector.toList

/-- The dirty-flag clear (R178). -/
def State.clearDirty (s : State) : State := { s with dirty := false }

/-- Put the stream of supplied bytes back after a step that was given its own byte. -/
def withStream (bytes : List Byte) : Result → Result
  | .next t => .next { t with drawInputs := bytes }
  | .fault f => .fault f
  | .refused r => .refused r

/-- `step()` with the byte drawn if the instruction is CXNN: "a free input of that step" (R166, R172). -/
def stepDrawing (drawn : Byte) (s : State) : Result :=
  withStream s.drawInputs (Sys2Proof.Machine.step { s with drawInputs := [drawn] })

/-- The state a transaction leads to (R170). -/
def transact : Transaction → State → Result
  | .reset, s => complete s.restart
  | .load bytes, s => complete (s.loadProgram bytes)
  | .step drawn, s => stepDrawing drawn s
  | .tickTimers, s => complete s.tickTimers
  | .pressKey n, s => complete (s.pressKey n)
  | .unpressKey n, s => complete (s.unpressKey n)
  | .getDisplay, s => complete s
  | .dirtyQuery, s => complete s
  | .dirtyClear, s => complete s.clearDirty

/-- The response of a step, read off the latch after it: `Ok`, or the fault value, the latched one again
on a halted engine (R172, R193). -/
def stepResponse (after : State) : Response :=
  match after.fault with
  | some f => .faulted f
  | none => .ok

/-- The response of a transaction, from the states before and after it (R170). -/
def respond : Transaction → State → State → Response
  | .reset, _, _ => .none
  | .load bytes, _, _ => if fitsProgram bytes then .ok else .capacityError
  | .step _, _, after => stepResponse after
  | .tickTimers, _, _ => .none
  | .pressKey _, _, _ => .none
  | .unpressKey _, _, _ => .none
  | .getDisplay, before, _ => .display before.displayCells
  | .dirtyQuery, before, _ => .dirty before.dirty
  | .dirtyClear, _, _ => .none

/-- A finite run: the transactions a host chooses, one after another, until it stops (R5, R181 (c)). -/
def runTransactions : List Transaction → State → Result
  | [], s => complete s
  | t :: ts, s =>
    match transact t s with
    | .next s' => runTransactions ts s'
    | .fault f => .fault f
    | .refused r => .refused r

/-- A host that never stops: the transaction it chooses at each point, for ever. It is the host's, no part of State
(R5, R180). -/
abbrev Schedule := Nat → Transaction

/-- The first transactions of a schedule: the finite run of a host that stops there (R181 (c)). -/
def firstTransactions (schedule : Schedule) (n : Nat) : List Transaction :=
  (List.range n).map schedule

/-- An INFINITE RUN: the states a schedule leads through, each transaction from one state to the next (R181). -/
def isRun (schedule : Schedule) (states : Nat → State) : Prop :=
  ∀ n, transact (schedule n) (states n) = .next (states (n + 1))

/-- The engine has not halted: no fault is latched (spec/60_exceptions.md R193). -/
abbrev State.running (s : State) : Prop := s.fault = none

/-- A fault is latched: a stopping point that "is never a successful end" (R181 (a)). -/
abbrev State.faulted (s : State) : Prop := s.fault ≠ none

/-- The word to be fetched is a jump to its own address, "`mem[pc..pc+1] = 1NNN` with `NNN = pc`" (R181 (b)); a fetch
that answers a word has a `pc` of 12 bits. It does not look at the latch. -/
abbrev State.atSelfJump (s : State) : Prop := fetch s = .ok (encode (.jp (s.pc.setWidth 12)))

/-- THE END-OF-RUN PREDICATE, the one R181 recommends (the spec's decision D23; log entry 13): at a jump to its own address with no
fault latched, for a faulted state is never a successful end (R181 (a); D21). -/
abbrev State.ended (s : State) : Prop := s.running ∧ s.atSelfJump

/-- The code of the latch (spec/60_exceptions.md R191; the spec's decision D29). -/
def faultCode : Option Fault → Nat
  | none => 0
  | some .stackUnderflow => 1
  | some (.unimplementedOpcode _ _ _ _) => 2
  | some .stackOverflow => 3
  | some (.accessDefect _ _) => 4

end Sys2Proof.Machine
end

