-- ==== Sys2Proof/Safety.lean ====
section
/-!
DEFINITION. The terms in which claims are made: the shape every reachable state has, the parts of the
state an instruction may change, the conditions under which an instruction faults, and the declarative
picture of a sprite. Where a run ends stands in Machine/Transactions.lean.
-/

namespace Sys2Proof.Machine

/-- The invariant of the machine. The canonical form of memory is the model's own (log entry 12). The bound of the stack
(spec/10_state.md R19) is the spec's decision D12 (log entries 4 and 5). A return address is one a CALL pushed, "at most
0x1000" (R83), and "the largest value `pc` can take is 0x10FE" (R17). -/
abbrev State.inv (s : State) : Prop :=
  s.mem.wf = true ∧ s.stack.length ≤ stackDepth ∧ (∀ a ∈ s.stack, a.toNat ≤ 0x1000) ∧
    s.pc.toNat ≤ 0x10FE

/-- The pieces of the state, one register, one memory byte, one cell and one key at a time. -/
inductive Part where
  | reg (r : Reg)
  | index
  | pc
  | stack
  | delay
  | sound
  | byte (a : Nat)
  | cell (y x : Nat)
  | key (k : Nat)
  | dirty
  | fault
  | draws
  deriving DecidableEq, Repr

/-- A piece of the state is the same in two states. A memory byte is compared as read. -/
def Part.same (s t : State) : Part → Prop
  | .reg r => t.reg r = s.reg r
  | .index => t.i = s.i
  | .pc => t.pc = s.pc
  | .stack => t.stack = s.stack
  | .delay => t.dt = s.dt
  | .sound => t.st = s.st
  | .byte a => t.readByte a = s.readByte a
  | .cell y x => pixel t.fb y x = pixel s.fb y x
  | .key k => t.keyDown k = s.keyDown k
  | .dirty => t.dirty = s.dirty
  | .fault => t.fault = s.fault
  | .draws => t.drawInputs = s.drawInputs ∧ t.drawCount = s.drawCount

/-- FRAME: every piece of the state outside `may` is the same after as before; every register, every byte
of memory, every cell and every key is covered. -/
def changesOnly (may : Part → Prop) (s t : State) : Prop := ∀ p, ¬ may p → p.same s t

/-- The fault an instruction raises in a state, if it raises one (spec/60_exceptions.md R195 to R197):
the one execution-time condition of each instruction (R200). -/
def faultOf (i : Instr) (s : State) : Option Fault :=
  match i with
  | .ret => if s.stack.length = 0 then some .stackUnderflow else none
  | .call _ => if s.stack.length = 16 then some .stackOverflow else none
  | .drwVxVyN _ _ n =>
    if 0 < n.toNat ∧ 0xFFF < s.i.toNat + n.toNat - 1 then
      some (.accessDefect .draw (max s.i.toNat 0x1000)) else none
  | .ldBVx _ =>
    if 0xFFF < s.i.toNat + 2 then some (.accessDefect .store (max s.i.toNat 0x1000)) else none
  | .ldMemIVx x =>
    if 0xFFF < s.i.toNat + x.val then some (.accessDefect .store (max s.i.toNat 0x1000)) else none
  | .ldVxMemI x =>
    if 0xFFF < s.i.toNat + x.val then some (.accessDefect .load (max s.i.toNat 0x1000)) else none
  | .skpVx x => if 15 < (s.reg x).toNat then some (.accessDefect .key (s.reg x).toNat) else none
  | .sknpVx x => if 15 < (s.reg x).toNat then some (.accessDefect .key (s.reg x).toNat) else none
  | .sys _ => none
  | .cls => none
  | .jp _ => none
  | .seVxNn _ _ => none
  | .sneVxNn _ _ => none
  | .seVxVy _ _ => none
  | .ldVxNn _ _ => none
  | .addVxNn _ _ => none
  | .ldVxVy _ _ => none
  | .orVxVy _ _ => none
  | .andVxVy _ _ => none
  | .xorVxVy _ _ => none
  | .addVxVy _ _ => none
  | .subVxVy _ _ => none
  | .shrVx _ _ => none
  | .subnVxVy _ _ => none
  | .shlVx _ _ => none
  | .sneVxVy _ _ => none
  | .ldINnn _ => none
  | .jpV0Nnn _ => none
  | .rndVxNn _ _ => none
  | .ldVxDt _ => none
  | .ldVxK _ => none
  | .ldDtVx _ => none
  | .ldStVx _ => none
  | .addIVx _ => none
  | .ldFVx _ => none

/-- The six instructions that write `VF` as a flag, each with the registers it reads; `none` for every other
(spec/10_state.md R13). -/
def flagOperands (i : Instr) : Option (List Reg) :=
  match i with
  | .addVxVy x y => some [x, y]
  | .subVxVy x y => some [x, y]
  | .subnVxVy x y => some [x, y]
  | .shrVx x _ => some [x]
  | .shlVx x _ => some [x]
  | .drwVxVyN x y _ => some [x, y]
  | .sys _ => none
  | .cls => none
  | .ret => none
  | .jp _ => none
  | .call _ => none
  | .seVxNn _ _ => none
  | .sneVxNn _ _ => none
  | .seVxVy _ _ => none
  | .ldVxNn _ _ => none
  | .addVxNn _ _ => none
  | .ldVxVy _ _ => none
  | .orVxVy _ _ => none
  | .andVxVy _ _ => none
  | .xorVxVy _ _ => none
  | .sneVxVy _ _ => none
  | .ldINnn _ => none
  | .jpV0Nnn _ => none
  | .rndVxNn _ _ => none
  | .skpVx _ => none
  | .sknpVx _ => none
  | .ldVxDt _ => none
  | .ldVxK _ => none
  | .ldDtVx _ => none
  | .ldStVx _ => none
  | .addIVx _ => none
  | .ldFVx _ => none
  | .ldBVx _ => none
  | .ldMemIVx _ => none
  | .ldVxMemI _ => none

/-- The bit a sprite, whose rows from the top are the bytes of a list, puts on the cell in row `y` and
column `x` when its top left corner is in row `y0` and column `x0`: most significant bit leftmost,
nothing outside its rows and its 8 columns (spec/42_display.md R122, R123). -/
def spriteBit (rows : List Byte) (y0 x0 y x : Nat) : Bool :=
  decide (y0 ≤ y ∧ y < y0 + rows.length ∧ x0 ≤ x ∧ x < x0 + 8) &&
    (rows.getD (y - y0) 0).getLsbD (7 - (x - x0))

end Sys2Proof.Machine
end

