-- ==== Sys2Proof/Certificates/Slice0/Obligations.lean ====
section
/-!
DEFINITION. The statements for the provers, one `def Obligations.<Name> : Prop` each; OBLIGATIONS.json lists
them. A meaning sees the `pc` already advanced past the instruction (spec/30_encoding.md R60), so `s.pc` below
is `pc0 + 2`, the address of the next instruction. Where a clause rests on a decision the spec marks as its own
(spec/92_eei_decisions.md) or on the model's log, the docstring says so.
-/

open Sys2Proof Sys2Proof.Machine

/-! ### Reset -/

/-- Reset, from any state, leaves every piece of state at the value of the table of spec/10_state.md R30. The
values of the display, of `dirty`, of the latch, of PROGRAM_START and of the font are the spec's own decisions
D19, D20, D21, D2, D3 and D4. `State.reset` is the state it leads to. -/
def Obligations.ResetLeavesEveryPieceAtItsValue : Prop :=
  transact .reset State.reset = .next State.reset ∧
  ∀ s : State, ∃ t, transact .reset s = .next t ∧
    (∀ r, t.reg r = 0) ∧ t.i = 0 ∧ t.pc = 0x0200#16 ∧ t.stack = [] ∧ t.dt = 0 ∧ t.st = 0 ∧
    (∀ a, a < 4096 → t.readByte a =
      if 0x050 ≤ a ∧ a ≤ 0x09F then fontTable.getD (a - 0x050) 0 else 0) ∧
    (∀ k, t.keyDown k = false) ∧ (∀ y x, pixel t.fb y x = false) ∧ t.dirty = true ∧ t.fault = none

/-- The invariant of the machine holds after reset, from any state: canonical memory, at most 16 return addresses, each
at most 0x1000, and `pc` at most 0x10FE. The canonical form of memory is the model's own
representation (log entry 12); the bound of 16 and the largest `pc` are the spec's own decisions D12, D11
and D24 (R19, R85, R17; log entries 4 and 5); the bound of a return address is that of R83. -/
def Obligations.ResetMeetsTheInvariant : Prop :=
  State.reset.inv ∧ ∀ s t : State, transact .reset s = .next t → t.inv

/-! ### Encoding -/

/-- DECODE AND ENCODE AGREE: the word of every well-formed instruction, with every operand, decodes to that
instruction; so do its two bytes, whatever follows them. The byte order and the patterns are the spec's own decisions D1
and D6; that the ignored fields (NNN of SYS, Y of the shifts) are operands at all is the model's choice (log entry 6). -/
def Obligations.DecodeOfEncodeIsTheInstruction : Prop :=
  ∀ (i : Instr) (rest : List Byte), i.wf = true →
    decodeWord (encode i) = .ok i ∧ decodeBytes (encodeBytes i ++ rest) = .ok (i, rest)

/-- The other direction: a word that decodes to an instruction is that instruction's word, bit for bit, and the
instruction is well-formed. The patterns are the spec's own decisions D6 and D7. It holds bit for bit only because the
instruction term keeps the ignored fields, NNN of SYS and Y of the shifts: that is the model's choice (log entry 6), where
R68 (D30) calls the words with all 16 values of Y the same instruction. -/
def Obligations.EncodeOfDecodeIsTheWord : Prop :=
  ∀ (op : Word) (i : Instr), decodeWord op = .ok i → i.wf = true ∧ encode i = op

/-- The decoder answers the row of the opcode table (R65) that the priority of R64 selects, and rejects the
words of no row. The patterns, and the strict low nibble of the register skips, are the spec's own decisions
D6 and D7. The mnemonics are D28. -/
def Obligations.DecoderFollowsTheOpcodeTable : Prop :=
  ∀ op : Word, tableMnemonic op =
    match decodeWord op with
    | .ok i => some (mnemonicOf i)
    | .error _ => none

/-- The illegal words are exactly those of R66 (a) to (e), and each is rejected with its four raw fields. That
(a) and (b) are illegal is the spec's own decision D7. The patterns of the legal words are its decision D6. -/
def Obligations.IllegalWordsAreExactlyTheListedOnes : Prop :=
  ∀ (op : Word) (f : Fields), decodeWord op = .error f ↔
    f.n3.toNat = op.toNat / 4096 ∧ f.x.toNat = op.toNat / 256 % 16 ∧
    f.y.toNat = op.toNat / 16 % 16 ∧ f.n.toNat = op.toNat % 16 ∧
    ((op.toNat / 4096 = 5 ∧ op.toNat % 16 ≠ 0) ∨
     (op.toNat / 4096 = 9 ∧ op.toNat % 16 ≠ 0) ∨
     (op.toNat / 4096 = 8 ∧ op.toNat % 16 ∈ [8, 9, 0xA, 0xB, 0xC, 0xD, 0xF]) ∨
     (op.toNat / 4096 = 0xE ∧ op.toNat % 256 ∉ [0x9E, 0xA1]) ∨
     (op.toNat / 4096 = 0xF ∧
       op.toNat % 256 ∉ [0x07, 0x0A, 0x15, 0x18, 0x1E, 0x29, 0x33, 0x55, 0x65]))

/-- A few words, written out from the patterns of R65 and the vectors of spec/95_test_vectors.md, one or more
of each family, decode to the instruction they stand for. The patterns are the spec's own decision D6. That
NNN of SYS and Y of the shifts are operands of the decoded terms is the model's choice (log entry 6). -/
def Obligations.SampleWordsDecodeToTheirInstructions : Prop :=
  decodeWord 0x00E0#16 = .ok .cls ∧ decodeWord 0x00EE#16 = .ok .ret ∧
  decodeWord 0x0123#16 = .ok (.sys 0x123#12) ∧ decodeWord 0x2ABC#16 = .ok (.call 0xABC#12) ∧
  decodeWord 0x332A#16 = .ok (.seVxNn 3 0x2A#8) ∧ decodeWord 0x8206#16 = .ok (.shrVx 2 0) ∧
  decodeWord 0x8127#16 = .ok (.subnVxVy 1 2) ∧ decodeWord 0xA2F0#16 = .ok (.ldINnn 0x2F0#12) ∧
  decodeWord 0xC30F#16 = .ok (.rndVxNn 3 0x0F#8) ∧ decodeWord 0xD345#16 = .ok (.drwVxVyN 3 4 5#4) ∧
  decodeWord 0xE1A1#16 = .ok (.sknpVx 1) ∧ decodeWord 0xF30A#16 = .ok (.ldVxK 3) ∧
  decodeWord 0xF515#16 = .ok (.ldDtVx 5) ∧ decodeWord 0xF265#16 = .ok (.ldVxMemI 2)

/-! ### The step -/

/-- The order of a step (R60). A latched engine does nothing; a fetch that leaves memory faults before the
advance; otherwise `pc` goes up by 2, the word is decoded, and either the instruction runs in the advanced
state or the illegal word faults there. The byte order, the AccessDefect of a fetch that leaves memory (R44,
R197), the latch, the `pc` of a fault and the arithmetic of `pc` are the spec's own decisions D1, D13, D21,
D22 and D24 (log entry 4). -/
def Obligations.StepRunsTheDecodedInstruction : Prop :=
  ∀ s : State,
    (∀ f, s.fault = some f → step s = .next s) ∧
    (s.fault = none → 0xFFE < s.pc.toNat →
      step s = .next { s with fault := some (.accessDefect .fetch (max s.pc.toNat 0x1000)) }) ∧
    (s.fault = none → s.pc.toNat ≤ 0xFFE →
      (∀ i, decodeWord (wordOf (s.readByte s.pc.toNat) (s.readByte (s.pc.toNat + 1))) = .ok i →
        step s = exec i { s with pc := s.pc + 2 }) ∧
      (∀ f, decodeWord (wordOf (s.readByte s.pc.toNat) (s.readByte (s.pc.toNat + 1))) = .error f →
        step s = .next { s with
          pc := s.pc + 2, fault := some (.unimplementedOpcode f.n3 f.x f.y f.n) }))

/-- The fetch reads the bytes at `pc` and `pc + 1`, of any parity, the first one high (R46 to R48; the byte
order and the absence of an alignment rule are the spec's own decisions D1 and D24), or faults with the lowest
address out of range and never wraps (R44, R197), which is its decision D13 (log entry 4). -/
def Obligations.FetchReadsTheBigEndianWord : Prop :=
  ∀ s : State,
    (s.pc.toNat ≤ 0xFFE → ∃ op, fetch s = .ok op ∧
      op.toNat = (s.readByte s.pc.toNat).toNat * 256 + (s.readByte (s.pc.toNat + 1)).toNat) ∧
    (0xFFE < s.pc.toNat → fetch s = .error (.accessDefect .fetch (max s.pc.toNat 0x1000)))

/-- The interface never blocks and never refuses: a step, and every other transaction, answers a next state
from every state. It covers every instruction: no meaning stops on any path (log entry 2). That a faulted step
is a next state with the latch written rests on the spec's own decision D21. -/
def Obligations.EveryTransactionAnswersANextState : Prop :=
  ∀ s : State, (∃ t, step s = .next t) ∧ ∀ tr : Transaction, ∃ t, transact tr s = .next t

/-! ### Faults -/

/-- While a fault is latched a step changes nothing and answers the latched fault again, and of all
transactions only reset clears the latch (R193; the latch is the spec's own decision D21). The others go on
working: a tick still counts and a key press still sets its flag. The response is read off the latch (log
entry 9). -/
def Obligations.OnlyResetClearsTheLatch : Prop :=
  ∀ (s : State) (f : Fault), s.fault = some f →
    step s = .next s ∧
    (∀ b, transact (.step b) s = .next s ∧ respond (.step b) s s = .faulted f) ∧
    (∀ tr t, transact tr s = .next t →
      (tr = .reset ∧ t.fault = none) ∨ (tr ≠ .reset ∧ t.fault = some f)) ∧
    (∀ t, transact .tickTimers s = .next t → t.dt.toNat = s.dt.toNat - 1) ∧
    (∀ k t, k ≤ 15 → transact (.pressKey k) s = .next t → t.keyDown k = true)

/-- An instruction raises a fault exactly on the condition R195 to R197 give it, with exactly the information
they give; every other instruction raises none. The conditions of `faultOf` are the spec's, those on the stack
bound, on memory ranges and on the key number being its own decisions D12, D13, D31 and D14. That a fault is a
latched next state is D21 (log entry 2). -/
def Obligations.InstructionsFaultExactlyWhenTheRulesSay : Prop :=
  ∀ (i : Instr) (s : State), s.fault = none → ∃ t, exec i s = .next t ∧ t.fault = faultOf i s

/-- Faults are precise: a step that faults changes the latch and the `pc` and nothing else; the `pc` is past
the instruction, or where it was for a fetch fault (R192, R194; the spec's own decisions D21 and D22, and D13
for the ranges checked before any write). -/
def Obligations.FaultsArePrecise : Prop :=
  ∀ (s t : State) (f : Fault), s.fault = none → step s = .next t → t.fault = some f →
    ((∃ a, f = .accessDefect .fetch a) → t = { s with fault := some f } ∧ 0xFFE < s.pc.toNat) ∧
    ((∀ a, f ≠ .accessDefect .fetch a) → t = { s with fault := some f, pc := s.pc + 2 })

/-! ### Invariants -/

/-- Every step keeps the invariant: canonical memory, at most 16 return addresses, each at most 0x1000, and
`pc` at most 0x10FE. The canonical form of memory is the model's own representation (log entry 12); the bound
of 16 and the largest `pc` are the spec's own decisions D12, D11 and D24 (R19, R85, R17; log entries 4 and 5);
the bound of a return address is that of R83. That an access out of memory faults, so that memory lists no cell
past 0xFFF and a fetch takes `pc` no further, is D13. -/
def Obligations.StepKeepsTheInvariant : Prop :=
  ∀ s t : State, s.inv → step s = .next t → t.inv

/-- Whatever transactions a host chooses, in any order and number, the invariant is kept (R5, R181): canonical
memory, at most 16 return addresses, each at most 0x1000, and `pc` at most 0x10FE. The canonical form of
memory is the model's own representation (log entry 12); the bound of 16 and the largest `pc` are the spec's
own decisions D12, D11 and D24 (R19, R85, R17; log entries 4 and 5); the bound of a return address is that of
R83. That an access out of memory faults, so that memory lists no cell past 0xFFF and a fetch takes `pc` no
further, is D13. -/
def Obligations.EveryRunOfTheHostKeepsTheInvariant : Prop :=
  ∀ (ts : List Transaction) (s t : State), s.inv → runTransactions ts s = .next t → t.inv

/-! ### Control flow -/

/-- A word with `n3 = 0` other than 0x00E0 and 0x00EE is SYS, and SYS does nothing at all (R81, R67). The two
words are the spec's own decision D6. That the term keeps NNN is the model's choice (log entry 6). -/
def Obligations.SysIsTheNoOp : Prop :=
  (∀ nnn : Addr12, nnn ≠ 0x0E0#12 → nnn ≠ 0x0EE#12 → decodeWord (0x0#4 ++ nnn) = .ok (.sys nnn)) ∧
  ∀ (nnn : Addr12) (s : State), exec (.sys nnn) s = .next s

/-- A jump overwrites `pc` with its 12-bit address exactly (R82). Its word is the spec's own decision D6. -/
def Obligations.JumpOverwritesThePc : Prop :=
  (∀ nnn : Addr12, decodeWord (0x1#4 ++ nnn) = .ok (.jp nnn)) ∧
  ∀ (nnn : Addr12) (s : State), ∃ t, exec (.jp nnn) s = .next t ∧ t.pc.toNat = nnn.toNat ∧
    changesOnly (fun p => p = .pc) s t

/-- A return pops the stack into `pc`, unmasked, or latches StackUnderflow on an empty stack with nothing else
changed; on a machine that keeps the invariant the popped value is at most 0x1000 (R83). Its word and the
latch are the spec's own decisions D6 and D21. -/
def Obligations.ReturnPopsTheStackOrUnderflows : Prop :=
  decodeWord 0x00EE#16 = .ok .ret ∧
  (∀ s : State, s.stack = [] → exec .ret s = .next { s with fault := some .stackUnderflow }) ∧
  ∀ (s : State) (a : Word) (rest : List Word), s.stack = a :: rest →
    ∃ t, exec .ret s = .next t ∧ t.pc = a ∧ t.stack = rest ∧ (s.inv → t.pc.toNat ≤ 0x1000) ∧
      changesOnly (fun p => p = .pc ∨ p = .stack) s t

/-- A call pushes the address of the next instruction and jumps, or latches StackOverflow with 16 return
addresses stacked and nothing else changed (R84). The bound and the latch are the spec's own decisions D12 and
D21. -/
def Obligations.CallPushesTheReturnAddressOrOverflows : Prop :=
  ∀ (nnn : Addr12) (s : State),
    (s.stack.length = 16 → exec (.call nnn) s = .next { s with fault := some .stackOverflow }) ∧
    (s.stack.length ≠ 16 → ∃ t, exec (.call nnn) s = .next t ∧ t.pc.toNat = nnn.toNat ∧
      t.stack = s.pc :: s.stack ∧ changesOnly (fun p => p = .pc ∨ p = .stack) s t)

/-- A call followed, wherever the program has got to, by a return resumes after the call with nothing changed
(spec/95_test_vectors.md S4). That a call with 16 return addresses stacked is the one that does not push is
the spec's own decision D12. -/
def Obligations.CallThenReturnResumesAfterTheCall : Prop :=
  ∀ (nnn : Addr12) (s : State) (elsewhere : Word), s.stack.length ≠ 16 →
    ∃ t, exec (.call nnn) s = .next t ∧ exec .ret { t with pc := elsewhere } = .next s

/-- The indexed jump goes to `NNN + V0`, not reduced modulo 4096 (R85). That the base is `V0`, and that nothing
is masked, is the spec's own decision D11. -/
def Obligations.IndexedJumpAddsV0 : Prop :=
  ∀ (nnn : Addr12) (s : State), ∃ t, exec (.jpV0Nnn nnn) s = .next t ∧
    t.pc.toNat = nnn.toNat + (s.reg 0).toNat ∧ changesOnly (fun p => p = .pc) s t

/-- The skips on a constant go 2 further exactly when the register is equal, or not equal, to it (R86, R87). Their words
are the spec's own decision D6. -/
def Obligations.ConstantSkipsCompareARegister : Prop :=
  (∀ (x : Nibble) (nn : Byte), decodeWord (0x3#4 ++ x ++ nn) = .ok (.seVxNn (regOf x) nn) ∧
    decodeWord (0x4#4 ++ x ++ nn) = .ok (.sneVxNn (regOf x) nn)) ∧
  ∀ (x : Reg) (nn : Byte) (s : State),
    (∃ t, exec (.seVxNn x nn) s = .next t ∧
      t.pc = (if s.reg x = nn then s.pc + 2 else s.pc) ∧ changesOnly (fun p => p = .pc) s t) ∧
    (∃ t, exec (.sneVxNn x nn) s = .next t ∧
      t.pc = (if s.reg x = nn then s.pc else s.pc + 2) ∧ changesOnly (fun p => p = .pc) s t)

/-- The skips on two registers go 2 further exactly when they are equal, or not equal (R88, R89); with any
other low nibble the word is illegal, which is the spec's own decision D7; the words are D6. -/
def Obligations.RegisterSkipsCompareTwoRegisters : Prop :=
  (∀ (x y : Reg) (s : State),
    (∃ t, exec (.seVxVy x y) s = .next t ∧
      t.pc = (if s.reg x = s.reg y then s.pc + 2 else s.pc) ∧ changesOnly (fun p => p = .pc) s t) ∧
    (∃ t, exec (.sneVxVy x y) s = .next t ∧
      t.pc = (if s.reg x = s.reg y then s.pc else s.pc + 2) ∧ changesOnly (fun p => p = .pc) s t)) ∧
  ∀ n3 x y n : Nibble, n3 = 0x5#4 ∨ n3 = 0x9#4 → n ≠ 0x0#4 →
    decodeWord (n3 ++ x ++ y ++ n) = .error ⟨n3, x, y, n⟩

/-! ### Registers and arithmetic -/

/-- LD VX, NN and ADD VX, NN: the constant, and the sum modulo 256; no flag is written, so `VF` changes only
as the destination (R101, R102). That LD VX, NN exists and means this (G7), and that the addition wraps
without a flag, are the spec's own decisions D6 and D8 (log entry 4). -/
def Obligations.ConstantLoadAndAddWriteOneRegister : Prop :=
  ∀ (x : Reg) (nn : Byte) (s : State),
    (∃ t, exec (.ldVxNn x nn) s = .next t ∧ t.reg x = nn ∧ changesOnly (fun p => p = .reg x) s t) ∧
    (∃ t, exec (.addVxNn x nn) s = .next t ∧
      (t.reg x).toNat = ((s.reg x).toNat + nn.toNat) % 256 ∧ changesOnly (fun p => p = .reg x) s t)

/-- LD VX, VY copies a register and changes nothing else (R103). Its word is the spec's own decision D6. -/
def Obligations.RegisterCopyWritesOneRegister : Prop :=
  (∀ x y : Nibble, decodeWord (0x8#4 ++ x ++ y ++ 0x0#4) = .ok (.ldVxVy (regOf x) (regOf y))) ∧
  ∀ (x y : Reg) (s : State), ∃ t, exec (.ldVxVy x y) s = .next t ∧ t.reg x = s.reg y ∧
    changesOnly (fun p => p = .reg x) s t

/-- OR, AND, XOR, bit by bit; nothing else changes (R104 to R106). That `VF` is left alone is the spec's own
decision D10. -/
def Obligations.LogicOperationsWriteOneRegister : Prop :=
  ∀ (x y : Reg) (s : State),
    (∃ t, exec (.orVxVy x y) s = .next t ∧
      (∀ k, (t.reg x).getLsbD k = ((s.reg x).getLsbD k || (s.reg y).getLsbD k)) ∧
      changesOnly (fun p => p = .reg x) s t) ∧
    (∃ t, exec (.andVxVy x y) s = .next t ∧
      (∀ k, (t.reg x).getLsbD k = ((s.reg x).getLsbD k && (s.reg y).getLsbD k)) ∧
      changesOnly (fun p => p = .reg x) s t) ∧
    (∃ t, exec (.xorVxVy x y) s = .next t ∧
      (∀ k, (t.reg x).getLsbD k = ((s.reg x).getLsbD k ^^ (s.reg y).getLsbD k)) ∧
      changesOnly (fun p => p = .reg x) s t)

/-- ADD VX, VY writes the sum modulo 256, then `VF` with 1 if the true sum exceeds 255, else 0; with `X = 15` the carry is
what stays (R107). The word and the order of the two writes are the spec's own decisions D6 and D9. -/
def Obligations.AddSetsTheCarry : Prop :=
  (∀ x y : Nibble, decodeWord (0x8#4 ++ x ++ y ++ 0x4#4) = .ok (.addVxVy (regOf x) (regOf y))) ∧
  ∀ (x y : Reg) (s : State), ∃ t, exec (.addVxVy x y) s = .next t ∧
    (x ≠ 15 → (t.reg x).toNat = ((s.reg x).toNat + (s.reg y).toNat) % 256) ∧
    (t.reg 15).toNat = (if 255 < (s.reg x).toNat + (s.reg y).toNat then 1 else 0) ∧
    changesOnly (fun p => p = .reg x ∨ p = .reg 15) s t

/-- SUB VX, VY writes `VX - VY` modulo 256, then `VF` with 1 if `VX >= VY` (no borrow), else 0; with `X = 15` the flag is
what stays (R108). The word and the order of the two writes are the spec's own decisions D6 and D9. -/
def Obligations.SubtractSetsNoBorrow : Prop :=
  (∀ x y : Nibble, decodeWord (0x8#4 ++ x ++ y ++ 0x5#4) = .ok (.subVxVy (regOf x) (regOf y))) ∧
  ∀ (x y : Reg) (s : State), ∃ t, exec (.subVxVy x y) s = .next t ∧
    (x ≠ 15 → (t.reg x).toNat =
      if (s.reg y).toNat ≤ (s.reg x).toNat then (s.reg x).toNat - (s.reg y).toNat
      else (s.reg x).toNat + 256 - (s.reg y).toNat) ∧
    (t.reg 15).toNat = (if (s.reg y).toNat ≤ (s.reg x).toNat then 1 else 0) ∧
    changesOnly (fun p => p = .reg x ∨ p = .reg 15) s t

/-- SUBN VX, VY writes `VY - VX` modulo 256 to `VX`, then `VF` with 1 if `VY >= VX`, else 0 (R110). That this
is a second instruction with the operands swapped is the spec's own resolution C12 and decision D6. With `X =
15` the flag is what stays: the order of the two writes is D9. -/
def Obligations.ReverseSubtractSetsNoBorrow : Prop :=
  ∀ (x y : Reg) (s : State), ∃ t, exec (.subnVxVy x y) s = .next t ∧
    (x ≠ 15 → (t.reg x).toNat =
      if (s.reg x).toNat ≤ (s.reg y).toNat then (s.reg y).toNat - (s.reg x).toNat
      else (s.reg y).toNat + 256 - (s.reg x).toNat) ∧
    (t.reg 15).toNat = (if (s.reg x).toNat ≤ (s.reg y).toNat then 1 else 0) ∧
    changesOnly (fun p => p = .reg x ∨ p = .reg 15) s t

/-- The shifts move `VX` by one bit in place, then put the bit shifted out into `VF`; with `X = 15` the flag
is what stays; `Y` takes no part (R109, R111). The words, the order of the two writes, and that all 16 values
of `Y` are legal (R68), are the spec's own decisions D6, D9 and D30 (log entry 4); that `Y` is an operand of
the decoded term at all is the model's choice (log entry 6). -/
def Obligations.ShiftsMoveOneBitInPlace : Prop :=
  (∀ x y : Nibble, decodeWord (0x8#4 ++ x ++ y ++ 0x6#4) = .ok (.shrVx (regOf x) (regOf y)) ∧
    decodeWord (0x8#4 ++ x ++ y ++ 0xE#4) = .ok (.shlVx (regOf x) (regOf y))) ∧
  ∀ (x y : Reg) (s : State),
    (∃ t, exec (.shrVx x y) s = .next t ∧
      (x ≠ 15 → (t.reg x).toNat = (s.reg x).toNat / 2) ∧
      (t.reg 15).toNat = (s.reg x).toNat % 2 ∧
      changesOnly (fun p => p = .reg x ∨ p = .reg 15) s t) ∧
    (∃ t, exec (.shlVx x y) s = .next t ∧
      (x ≠ 15 → (t.reg x).toNat = (s.reg x).toNat * 2 % 256) ∧
      (t.reg 15).toNat = (s.reg x).toNat / 128 ∧
      changesOnly (fun p => p = .reg x ∨ p = .reg 15) s t) ∧
    (∀ y' : Reg, exec (.shrVx x y') s = exec (.shrVx x y) s ∧
      exec (.shlVx x y') s = exec (.shlVx x y) s)

/-- R113: after a flag-writing instruction `VF` is exactly 0x00 or 0x01, and it is overwritten, never accumulated:
where `VF` is no operand, its old value has no part in the new one. -/
def Obligations.FlagWritesOverwriteVF : Prop :=
  ∀ (i : Instr) (regs : List Reg) (s t : State), flagOperands i = some regs → s.fault = none →
    exec i s = .next t → t.fault = none →
    (t.reg 15 = 0x00#8 ∨ t.reg 15 = 0x01#8) ∧
    ∀ (b : Byte) (t' : State), 15 ∉ regs → exec i (s.setReg 15 b) = .next t' → t'.reg 15 = t.reg 15

/-! ### Display -/

/-- CLS clears every cell and sets `dirty`; `VF` and all else stay (R121). The meaning of the name is the spec's
reading (91_not_in_source.md N25), that it is one of the 35 and sets `dirty` its own decisions D6 and D20. -/
def Obligations.ClearScreenClearsEveryCell : Prop :=
  ∀ s : State, ∃ t, exec .cls s = .next t ∧ (∀ y x, pixel t.fb y x = false) ∧ t.dirty = true ∧
    changesOnly (fun p => (∃ y x, p = .cell y x) ∨ p = .dirty) s t

/-- THE DRAW IS THE XOR OF THE CLIPPED SPRITE (R122 to R124). With its rows in memory, DRW flips exactly the
cells under the set bits of the sprite whose corner is `(VX mod 64, VY mod 32)`, whatever falls past an edge
being dropped; `VF` becomes 1 if one of them was set, else 0; `dirty` is set; nothing else changes. With a row
out of memory it latches AccessDefect and changes nothing else. That X gives the column and Y the row, that a
draw sets `dirty`, that a row out of memory faults and that the check covers clipped rows are the spec's own
(G10, D20, D13, D31), as are the latch (D21) and the size of the display, the 64 and 32 of the origin and of
the clip (R23, D5), which the model fixes (log entry 5). -/
def Obligations.DrawIsTheXorOfTheClippedSprite : Prop :=
  ∀ (x y : Reg) (n : Nibble) (s : State),
    (n.toNat = 0 ∨ s.i.toNat + n.toNat - 1 ≤ 0xFFF →
      ∃ t rows, exec (.drwVxVyN x y n) s = .next t ∧
        rows = (List.range n.toNat).map (fun r => s.readByte (s.i.toNat + r)) ∧
        (∀ row col, row < 32 → col < 64 → pixel t.fb row col = (pixel s.fb row col ^^
          spriteBit rows ((s.reg y).toNat % 32) ((s.reg x).toNat % 64) row col)) ∧
        (t.reg 15 = 0x00#8 ∨ t.reg 15 = 0x01#8) ∧
        (t.reg 15 = 0x01#8 ↔ ∃ row col, row < 32 ∧ col < 64 ∧ pixel s.fb row col = true ∧
          spriteBit rows ((s.reg y).toNat % 32) ((s.reg x).toNat % 64) row col = true) ∧
        t.dirty = true ∧
        changesOnly (fun p => p = .reg 15 ∨ (∃ row col, p = .cell row col) ∨ p = .dirty) s t) ∧
    (0 < n.toNat → 0xFFF < s.i.toNat + n.toNat - 1 → exec (.drwVxVyN x y n) s =
      .next { s with fault := some (.accessDefect .draw (max s.i.toNat 0x1000)) })

/-- Drawing the same sprite twice at the same place restores the display, and on a clear display the second
draw collides exactly if some set bit of the sprite lands on the screen (R125, C11; spec/95_test_vectors.md
S7). The coordinates are not in `VF`, which the first draw overwrites. That the range is checked, clipped rows
included, is the spec's own decisions D13 and D31; that the flag is written last, D9. The size of the screen
is D5 (log entry 5). -/
def Obligations.RedrawErases : Prop :=
  ∀ (x y : Reg) (n : Nibble) (s : State), x ≠ 15 → y ≠ 15 →
    n.toNat = 0 ∨ s.i.toNat + n.toNat - 1 ≤ 0xFFF →
    ∃ t u, exec (.drwVxVyN x y n) s = .next t ∧ exec (.drwVxVyN x y n) t = .next u ∧ u.fb = s.fb ∧
      ((∀ row col, pixel s.fb row col = false) →
        t.reg 15 = 0x00#8 ∧ (u.reg 15 = 0x01#8 ↔ ∃ row col, pixel t.fb row col = true))

/-! ### Timers -/

/-- FX07 reads the delay timer, FX15 writes it, FX18 writes the sound timer; nothing else changes (R131 to
R133; that the three exist and mean this is the spec's own decisions D6 and D25). -/
def Obligations.TimerMovesCopyOneByte : Prop :=
  ∀ (x : Reg) (s : State),
    (∃ t, exec (.ldVxDt x) s = .next t ∧ t.reg x = s.dt ∧ changesOnly (fun p => p = .reg x) s t) ∧
    (∃ t, exec (.ldDtVx x) s = .next t ∧ t.dt = s.reg x ∧ changesOnly (fun p => p = .delay) s t) ∧
    (∃ t, exec (.ldStVx x) s = .next t ∧ t.st = s.reg x ∧ changesOnly (fun p => p = .sound) s t)

/-- R134: a tick takes each timer down by exactly one, on its own, saturating at zero, in every state, and changes
nothing else. -/
def Obligations.TickCountsBothTimersDown : Prop :=
  ∀ s : State, ∃ t, transact .tickTimers s = .next t ∧
    t.dt.toNat = (if 0 < s.dt.toNat then s.dt.toNat - 1 else 0) ∧
    t.st.toNat = (if 0 < s.st.toNat then s.st.toNat - 1 else 0) ∧
    changesOnly (fun p => p = .delay ∨ p = .sound) s t

/-- `n` ticks in a row take each timer down by `n`, and to zero, never below, from then on
(spec/95_test_vectors.md T96). -/
def Obligations.RepeatedTicksReachZero : Prop :=
  ∀ (n : Nat) (s : State), ∃ t, runTransactions (List.replicate n .tickTimers) s = .next t ∧
    t.dt.toNat = s.dt.toNat - n ∧ t.st.toNat = s.st.toNat - n ∧
    changesOnly (fun p => p = .delay ∨ p = .sound) s t

/-! ### Keypad -/

/-- The key skips go 2 further exactly when the key whose number `VX` holds is pressed, or not pressed, now
(R141, R142); with a number above 15 they latch AccessDefect and change nothing else (R147), which is the
spec's own decision D14, the latch D21. -/
def Obligations.KeySkipsReadTheLatch : Prop :=
  ∀ (x : Reg) (s : State),
    ((s.reg x).toNat ≤ 15 →
      (∃ t, exec (.skpVx x) s = .next t ∧
        t.pc = (if s.keyDown (s.reg x).toNat = true then s.pc + 2 else s.pc) ∧
        changesOnly (fun p => p = .pc) s t) ∧
      (∃ t, exec (.sknpVx x) s = .next t ∧
        t.pc = (if s.keyDown (s.reg x).toNat = true then s.pc else s.pc + 2) ∧
        changesOnly (fun p => p = .pc) s t)) ∧
    (15 < (s.reg x).toNat →
      exec (.skpVx x) s = .next { s with fault := some (.accessDefect .key (s.reg x).toNat) } ∧
      exec (.sknpVx x) s = .next { s with fault := some (.accessDefect .key (s.reg x).toNat) })

/-- FX0A with a key pressed puts the least pressed one into `VX`; with none it takes `pc` back by 2; nothing else
changes (R143). That the least one is taken is the spec's own decision D15. -/
def Obligations.KeyWaitTakesTheLeastPressedKey : Prop :=
  ∀ (x : Reg) (s : State),
    (∀ k, k ≤ 15 → s.keyDown k = true → (∀ j, j < k → s.keyDown j = false) →
      ∃ t, exec (.ldVxK x) s = .next t ∧ (t.reg x).toNat = k ∧
        changesOnly (fun p => p = .reg x) s t) ∧
    ((∀ k, s.keyDown k = false) →
      ∃ t, exec (.ldVxK x) s = .next t ∧ t.pc = s.pc - 2 ∧ changesOnly (fun p => p = .pc) s t)

/-- A step that waits for a key with none pressed changes nothing at all, `pc` included, and answers Ok: the
same instruction is fetched again (R144 (d)). The word is the spec's own decision D6 (G12). -/
def Obligations.KeyWaitWithNoKeyIsFetchedAgain : Prop :=
  ∀ (s : State) (op : Word) (x : Reg), s.fault = none → fetch s = .ok op →
    decodeWord op = .ok (.ldVxK x) → (∀ k, s.keyDown k = false) →
    step s = .next s ∧ stepResponse s = .ok

/-- R145, R146: pressing or releasing key `n` sets or clears that flag, in every state; an `n` above 15 changes
nothing, without an error. -/
def Obligations.PressAndUnpressSetOneFlag : Prop :=
  ∀ (n : Nat) (s : State),
    (n ≤ 15 →
      (∃ t, transact (.pressKey n) s = .next t ∧ t.keyDown n = true ∧
        changesOnly (fun p => p = .key n) s t) ∧
      (∃ t, transact (.unpressKey n) s = .next t ∧ t.keyDown n = false ∧
        changesOnly (fun p => p = .key n) s t)) ∧
    (15 < n → transact (.pressKey n) s = .next s ∧ transact (.unpressKey n) s = .next s) ∧
    (∀ t, respond (.pressKey n) s t = .none ∧ respond (.unpressKey n) s t = .none)

/-! ### Index register and memory -/

/-- ANNN loads `I` with the 12-bit address; FX1E adds `VX` to it modulo 65536 with no flag; nothing else changes
(R151, R152). The meaning of the two is the spec's own decisions D6 and D17. -/
def Obligations.IndexLoadAndAddWriteTheIndex : Prop :=
  (∀ (nnn : Addr12) (s : State), ∃ t, exec (.ldINnn nnn) s = .next t ∧ t.i.toNat = nnn.toNat ∧
    changesOnly (fun p => p = .index) s t) ∧
  ∀ (x : Reg) (s : State), ∃ t, exec (.addIVx x) s = .next t ∧
    t.i.toNat = (s.i.toNat + (s.reg x).toNat) % 65536 ∧ changesOnly (fun p => p = .index) s t

/-- FX29 points `I` at the glyph of the low nibble of `VX`, FONT_BASE + 5 d; nothing else changes (R153). The word and
FONT_BASE are the spec's own decisions D6 and D3. -/
def Obligations.FontAddressIsBaseAndFiveTimesTheDigit : Prop :=
  (∀ x : Nibble, decodeWord (0xF#4 ++ x ++ 0x29#8) = .ok (.ldFVx (regOf x))) ∧
  ∀ (x : Reg) (s : State), ∃ t, exec (.ldFVx x) s = .next t ∧
    t.i.toNat = 0x050 + (s.reg x).toNat % 16 * 5 ∧ changesOnly (fun p => p = .index) s t

/-- FX33 stores the hundreds, tens and ones digits of `VX` at `I`, `I + 1`, `I + 2` and changes nothing else,
or, if one of the three is out of memory, latches AccessDefect and stores nothing (R154). Its meaning is the
spec's own decisions D6, D25 and D13, the latch D21. -/
def Obligations.DecimalStoreWritesThreeDigits : Prop :=
  ∀ (x : Reg) (s : State),
    (s.i.toNat + 2 ≤ 0xFFF → ∃ t, exec (.ldBVx x) s = .next t ∧
      (t.readByte s.i.toNat).toNat = (s.reg x).toNat / 100 ∧
      (t.readByte (s.i.toNat + 1)).toNat = (s.reg x).toNat / 10 % 10 ∧
      (t.readByte (s.i.toNat + 2)).toNat = (s.reg x).toNat % 10 ∧
      changesOnly (fun p => ∃ k, k ≤ 2 ∧ p = .byte (s.i.toNat + k)) s t) ∧
    (0xFFF < s.i.toNat + 2 → exec (.ldBVx x) s =
      .next { s with fault := some (.accessDefect .store (max s.i.toNat 0x1000)) })

/-- FX55 stores `V0` to `VX` at `I` upward and changes nothing else, `I` included, or, if one of the addresses
is out of memory, latches AccessDefect and stores nothing (R155). Its meaning, and that `I` is kept, are the
spec's own decisions D6, D13 and D16, the latch D21. -/
def Obligations.RegisterStoreWritesV0ToVX : Prop :=
  ∀ (x : Reg) (s : State),
    (s.i.toNat + x.val ≤ 0xFFF → ∃ t, exec (.ldMemIVx x) s = .next t ∧
      (∀ r : Reg, r.val ≤ x.val → t.readByte (s.i.toNat + r.val) = s.reg r) ∧
      changesOnly (fun p => ∃ k, k ≤ x.val ∧ p = .byte (s.i.toNat + k)) s t) ∧
    (0xFFF < s.i.toNat + x.val → exec (.ldMemIVx x) s =
      .next { s with fault := some (.accessDefect .store (max s.i.toNat 0x1000)) })

/-- FX65 loads `V0` to `VX` from `I` upward and changes nothing else, `I` included, or, if one of the
addresses is out of memory, latches AccessDefect and loads nothing (R156). Its meaning, and that `I` is kept,
are the spec's own decisions D6, D13 and D16, the latch D21. -/
def Obligations.RegisterLoadReadsV0ToVX : Prop :=
  ∀ (x : Reg) (s : State),
    (s.i.toNat + x.val ≤ 0xFFF → ∃ t, exec (.ldVxMemI x) s = .next t ∧
      (∀ r : Reg, r.val ≤ x.val → t.reg r = s.readByte (s.i.toNat + r.val)) ∧
      changesOnly (fun p => ∃ r : Reg, r.val ≤ x.val ∧ p = .reg r) s t) ∧
    (0xFFF < s.i.toNat + x.val → exec (.ldVxMemI x) s =
      .next { s with fault := some (.accessDefect .load (max s.i.toNat 0x1000)) })

/-- What FX55 stored, FX65 loads back: after both, with the registers overwritten in between, `V0` to `VX`
hold what they held (R155, R156). What FX55 and FX65 do, that they keep `I`, so that the load reads where the
store wrote, and that a range inside memory is what does not fault are the spec's own decisions D6, D16 and
D13 (log entries 4 and 5). -/
def Obligations.StoreThenLoadRestoresTheRegisters : Prop :=
  ∀ (x : Reg) (s : State) (v : Vector Byte 16), s.i.toNat + x.val ≤ 0xFFF →
    ∃ t u, exec (.ldMemIVx x) s = .next t ∧ exec (.ldVxMemI x) { t with v := v } = .next u ∧
      ∀ r : Reg, r.val ≤ x.val → u.reg r = s.reg r

/-- A store is seen by the very next fetch (R52): after FX55 over the two bytes at `pc`, the word fetched is
the one just stored. That the byte stored at `pc` is the high byte of the word is the spec's own decision D1
(R47); what FX55 does, that any `pc` of either parity is fetched from and that a range inside memory is what
does not fault are its decisions D6, D24 and D13 (log entry 4). -/
def Obligations.StoresAreSeenByTheNextFetch : Prop :=
  ∀ (x r r' : Reg) (s : State), s.i.toNat + x.val ≤ 0xFFF → r.val < x.val → r'.val = r.val + 1 →
    s.pc.toNat = s.i.toNat + r.val →
    ∃ t, exec (.ldMemIVx x) s = .next t ∧ fetch t = .ok (wordOf (s.reg r) (s.reg r'))

/-- Memories in canonical form that read alike at every address are the same list, so that equal memories are equal
data. The canonical list is the model's own representation of `mem` (log entry 12); the spec speaks of cells alone. -/
def Obligations.CanonicalMemoriesThatReadAlikeAreEqual : Prop :=
  ∀ m m' : Memory, m.wf = true → m'.wf = true → (∀ a, m.read a = m'.read a) → m = m'

/-! ### Random -/

/-- RND puts the drawn byte, masked, into `VX`; the byte is the one the environment supplies, or, with none
supplied, the free value of log entry 1, of which nothing is known. Nothing else changes but the model's account
of draws (R167; its meaning is the spec's own decisions D6 and D18). -/
def Obligations.RandomByteIsMasked : Prop :=
  ∀ (x : Reg) (nn : Byte) (s : State), ∃ t, exec (.rndVxNn x nn) s = .next t ∧
    (∀ b rest, s.drawInputs = b :: rest → t.reg x = b &&& nn ∧ t.drawInputs = rest) ∧
    (s.drawInputs = [] → t.reg x = Config.drawnByte s.drawCount &&& nn) ∧
    (∀ k, nn.getLsbD k = false → (t.reg x).getLsbD k = false) ∧
    changesOnly (fun p => p = .reg x ∨ p = .draws) s t

/-- Every byte under the mask is a possible result of CXNN: for some drawn byte the step gives it (R166, R167:
"every such r' is possible"; the spec's own decisions D6 and D18; how the drawn byte is supplied is log entry
1). -/
def Obligations.EveryMaskedByteCanBeDrawn : Prop :=
  ∀ (s : State) (op : Word) (x : Reg) (nn r : Byte), s.fault = none → fetch s = .ok op →
    decodeWord op = .ok (.rndVxNn x nn) → r &&& nn = r →
    ∃ drawn t, transact (.step drawn) s = .next t ∧ t.reg x = r ∧ t.pc = s.pc + 2

/-! ### Host interface -/

/-- A load of at most 3584 bytes answers Ok and puts byte `i` at PROGRAM_START + `i`, and changes nothing else: cells
past the blob are kept (R173). That it may happen at any time and keeps them, and the numbers, are the spec's own
decisions D27 and D2. -/
def Obligations.LoadCopiesTheProgram : Prop :=
  ∀ (bytes : List Byte) (s : State), bytes.length ≤ 3584 →
    ∃ t, transact (.load bytes) s = .next t ∧ respond (.load bytes) s t = .ok ∧
      (∀ k, k < bytes.length → t.readByte (0x200 + k) = bytes.getD k 0) ∧
      changesOnly (fun p => ∃ k, k < bytes.length ∧ p = .byte (0x200 + k)) s t

/-- R174: a load of more than PROGRAM_CAPACITY bytes answers CapacityError and changes no state at all; it is not
latched. -/
def Obligations.OversizedLoadChangesNothing : Prop :=
  ∀ (bytes : List Byte) (s : State), programCapacity < bytes.length →
    transact (.load bytes) s = .next s ∧ respond (.load bytes) s s = .capacityError

/-- `get_display` answers 2048 cells, cell `y * 64 + x` being `fb[y][x]`, and changes nothing (R177; that row
0 is the top and column 0 the left is the spec's own G14). The 2048 cells and the factor 64 are the size of
the display, the spec's own decision D5 (R23), which the model fixes (log entry 5). -/
def Obligations.DisplaySnapshotIsRowMajor : Prop :=
  ∀ s : State, transact .getDisplay s = .next s ∧
    ∃ cells, respond .getDisplay s s = .display cells ∧ cells.length = 2048 ∧
      ∀ y x, y < 32 → x < 64 → cells[y * 64 + x]? = some (pixel s.fb y x)

/-- The dirty query answers the flag and changes nothing; the clear clears it and changes nothing else; and over any
run of transactions without a clear, a flag that is 0 at the end means that the display is what it was (R178). When
the flag is set is the spec's own decision D20. -/
def Obligations.CleanDirtyFlagMeansTheSameDisplay : Prop :=
  (∀ s : State, transact .dirtyQuery s = .next s ∧ respond .dirtyQuery s s = .dirty s.dirty ∧
    ∃ t, transact .dirtyClear s = .next t ∧ t.dirty = false ∧
      changesOnly (fun p => p = .dirty) s t) ∧
  ∀ (ts : List Transaction) (s t : State), .dirtyClear ∉ ts → runTransactions ts s = .next t →
    t.dirty = false → t.fb = s.fb ∧ s.dirty = false

/-! ### Rules of the whole machine -/

/-- Which instructions write which state, over all 35 (spec/10_state.md R11 to R25: R11 and R13 for the
registers, R15 for `I`, R16 for `pc`, R18 for the stack, R20 for the timers, R22 for memory, R23 to R25 for
display, keypad and `dirty`): memory is written by FX33 and FX55 alone, the display and `dirty` by 00E0 and
DXYN, the stack by CALL and RET, `I` by ANNN, FX1E and FX29, DT by FX15, ST by FX18, the keypad by none; `pc`
is changed past its advance only by the jumps, CALL, RET, the skips and FX0A; and a register other than `VF`
only by an instruction that names it. The clause on `drawInputs` and `drawCount`, that only CXNN changes them,
is about two fields of the model's own (log entry 1, DESIGN CHOICE) of which the spec knows nothing. What the
others write or do not write rests on the spec's own decisions (log entry 4): the instructions the source does
not describe D6, D18 and D25; no flag from 7XNN, OR, AND, XOR and FX1E D8, D10 and D17; `I` kept by FX55 and
FX65 D16; who sets `dirty` D20; the two shifts in place D30; `V0` as the base of BNNN and no `pc` mask D11.
That an instruction which faults writes none of these is D13 and D21. -/
def Obligations.OnlyTheNamedInstructionsWriteEachPart : Prop :=
  ∀ (i : Instr) (s t : State), exec i s = .next t →
    ((∃ a, t.readByte a ≠ s.readByte a) → (∃ x, i = .ldBVx x) ∨ ∃ x, i = .ldMemIVx x) ∧
    (t.fb ≠ s.fb ∨ t.dirty ≠ s.dirty → i = .cls ∨ ∃ x y n, i = .drwVxVyN x y n) ∧
    (t.stack ≠ s.stack → i = .ret ∨ ∃ nnn, i = .call nnn) ∧
    (t.i ≠ s.i → (∃ nnn, i = .ldINnn nnn) ∨ (∃ x, i = .addIVx x) ∨ ∃ x, i = .ldFVx x) ∧
    (t.dt ≠ s.dt → ∃ x, i = .ldDtVx x) ∧ (t.st ≠ s.st → ∃ x, i = .ldStVx x) ∧ t.key = s.key ∧
    (t.drawInputs ≠ s.drawInputs ∨ t.drawCount ≠ s.drawCount → ∃ x nn, i = .rndVxNn x nn) ∧
    (t.pc ≠ s.pc → mnemonicOf i ∈ ["JP", "CALL", "RET", "JP_V0_NNN", "SE_VX_NN", "SNE_VX_NN",
      "SE_VX_VY", "SNE_VX_VY", "SKP_VX", "SKNP_VX", "LD_VX_K"]) ∧
    (∀ r : Reg, t.reg r ≠ s.reg r →
      (∃ nn, i = .ldVxNn r nn ∨ i = .addVxNn r nn ∨ i = .rndVxNn r nn) ∨
      (∃ y, i = .ldVxVy r y ∨ i = .orVxVy r y ∨ i = .andVxVy r y ∨ i = .xorVxVy r y ∨
        i = .addVxVy r y ∨ i = .subVxVy r y ∨ i = .shrVx r y ∨ i = .subnVxVy r y ∨ i = .shlVx r y) ∨
      i = .ldVxDt r ∨ i = .ldVxK r ∨ (∃ x, r.val ≤ x.val ∧ i = .ldVxMemI x) ∨
      (r = 15 ∧ (flagOperands i).isSome = true))

/-- NONINTERFERENCE: no program can learn the sound timer or the dirty flag (R29 (d), R21; that `ST` drives no
output is the spec's own decision D26). Two machines that differ only in them stay so, step by step: if
`dirty` and `ST` are set to anything before a step, every other piece of the state comes out the same. That a
latched fault stops both and that the display instructions alone set `dirty` are D21 and D20; the two machines
hold the same supplied bytes and the same count of draws, so that both draw the same (log entry 1). -/
def Obligations.SoundAndDirtyAreInvisible : Prop :=
  ∀ (s t : State) (st : Byte) (dirty : Bool), step s = .next t →
    ∃ t', step { s with st := st, dirty := dirty } = .next t' ∧
      { t' with st := t.st, dirty := t.dirty } = t

/-- A step at the end of a run, a jump to its own address with no fault latched, changes nothing and answers
Ok: the conventional end of a program (R181 (b)). That it is the end of a run (log entry 13), and that a
faulted state is none, rest on the spec's own decisions D23 and D21. The response is read off the latch (log
entry 9). -/
def Obligations.SelfJumpChangesNothing : Prop :=
  ∀ s : State, s.ended → step s = .next s ∧ stepResponse s = .ok

/-- INFINITE RUNS: a host that never stops, whatever it chooses, leads from every state through exactly one
sequence of states; its first `n` transactions are the finite run to the `n`-th of them; and the invariant,
once it holds, holds along the whole of it (R5, R181; D23). In the invariant the canonical memory is log entry
12, the bounds of the stack and of `pc` are the spec's own decisions D12, D11, D24 and D13. -/
def Obligations.EveryScheduleHasExactlyOneRun : Prop :=
  ∀ (schedule : Schedule) (s : State), ∃ states : Nat → State,
    states 0 = s ∧ isRun schedule states ∧
    (∀ states', states' 0 = s → isRun schedule states' → states' = states) ∧
    (∀ n, runTransactions (firstTransactions schedule n) s = .next (states n)) ∧
    (s.inv → ∀ n, (states n).inv)

/-- ENDS OF A RUN (R181): from an ended state any number of steps, whatever bytes are drawn, change nothing; and along
an infinite run without a reset a latched fault stays latched for ever and no state is an ended one, at a jump to its own
address or not. The end-of-run predicate (log entry 13) and the latch rest on the spec's own decisions D23 and D21. -/
def Obligations.EndedRunsStayEndedAndFaultedRunsNeverEnd : Prop :=
  (∀ (s : State) (ts : List Transaction), s.ended → (∀ tr ∈ ts, ∃ drawn, tr = .step drawn) →
    runTransactions ts s = .next s) ∧
  ∀ (schedule : Schedule) (states : Nat → State), isRun schedule states → (states 0).faulted →
    (∀ n, schedule n ≠ .reset) →
    ∀ n, (states n).fault = (states 0).fault ∧ ¬ (states n).ended
end

