-- ==== Sys2Proof/Laws/Bits.lean ====
section
/-!
SUPPORT. How the fields of a word come apart and go together: what each field of an encoded word is, and
that the fields of a word make it up again. The encoding claims cite these and touch no bits.
-/

namespace Sys2Proof

@[simp] theorem regOf_regField (r : Reg) : regOf (regField r) = r := rfl

@[simp] theorem regField_regOf (f : Nibble) : regField (regOf f) = f := rfl

theorem wordOf_high_low (op : Word) : wordOf (highByte op) (lowByte op) = op := by
  apply BitVec.eq_of_getElem_eq
  intro k hk
  simp only [wordOf, highByte, lowByte]
  rw [BitVec.getElem_append]
  split <;> simp <;> grind

@[simp] theorem highByte_wordOf (hi lo : Byte) : highByte (wordOf hi lo) = hi :=
  BitVec.extractLsb'_append_eq_left

@[simp] theorem lowByte_wordOf (hi lo : Byte) : lowByte (wordOf hi lo) = lo :=
  BitVec.extractLsb'_append_eq_right

/-- The fields of a word of format ADDR. -/
theorem encodeAddr_fields (n3 : Nibble) (nnn : Addr12) :
    (fieldsOf (encodeAddr n3 nnn)).n3 = n3 ∧ immAddr (encodeAddr n3 nnn) = nnn :=
  ⟨BitVec.extractLsb'_append_eq_left, BitVec.extractLsb'_append_eq_right⟩

/-- The fields of a word of format REGIMM or REG. -/
theorem encodeRegByte_fields (n3 : Nibble) (x : Reg) (nn : Byte) :
    (fieldsOf (encodeRegByte n3 x nn)).n3 = n3 ∧ (fieldsOf (encodeRegByte n3 x nn)).x = regField x ∧
      immByte (encodeRegByte n3 x nn) = nn := by
  simp only [fieldsOf, immByte, encodeRegByte]
  refine ⟨?_, ?_, BitVec.extractLsb'_append_eq_right⟩ <;>
  · apply BitVec.eq_of_getElem_eq
    intro k hk
    simp
    grind

/-- The fields of a word of format REGREG or REGREGN. -/
theorem encodeRegReg_fields (n3 : Nibble) (x y : Reg) (n : Nibble) :
    fieldsOf (encodeRegReg n3 x y n) = ⟨n3, regField x, regField y, n⟩ := by
  simp only [fieldsOf, encodeRegReg, Fields.mk.injEq]
  refine ⟨?_, ?_, ?_, BitVec.extractLsb'_append_eq_right⟩ <;>
  · apply BitVec.eq_of_getElem_eq
    intro k hk
    simp
    grind

/-- The fields of format ADDR make up the word. -/
theorem encodeAddr_of_fields (op : Word) : encodeAddr (fieldsOf op).n3 (immAddr op) = op := by
  apply BitVec.eq_of_getElem_eq
  intro k hk
  simp only [encodeAddr, fieldsOf, immAddr]
  rw [BitVec.getElem_append]
  split <;> simp <;> grind

theorem append_of_two_nibbles_byte (op : BitVec (4 + 4 + 8)) :
    op.extractLsb' 12 4 ++ op.extractLsb' 8 4 ++ op.extractLsb' 0 8 = op := by
  apply BitVec.eq_of_getElem_eq
  intro k hk
  simp only [BitVec.getElem_append, BitVec.getElem_extractLsb']
  grind

theorem append_of_four_nibbles (op : BitVec (4 + 4 + 4 + 4)) :
    op.extractLsb' 12 4 ++ op.extractLsb' 8 4 ++ op.extractLsb' 4 4 ++ op.extractLsb' 0 4 = op := by
  apply BitVec.eq_of_getElem_eq
  intro k hk
  simp only [BitVec.getElem_append, BitVec.getElem_extractLsb']
  grind

/-- The fields of formats REGIMM and REG make up the word. -/
theorem encodeRegByte_of_fields (op : Word) :
    encodeRegByte (fieldsOf op).n3 (regOf (fieldsOf op).x) (immByte op) = op :=
  append_of_two_nibbles_byte op

/-- The fields of formats REGREG and REGREGN make up the word. -/
theorem encodeRegReg_of_fields (op : Word) :
    encodeRegReg (fieldsOf op).n3 (regOf (fieldsOf op).x) (regOf (fieldsOf op).y) (fieldsOf op).n =
      op :=
  append_of_four_nibbles op

/-- What the decoder looks at in a word of format ADDR. -/
theorem decode?_encodeAddr (n3 : Nibble) (nnn : Addr12) : ∃ x y n nn,
    decode? (encodeAddr n3 nnn) = decodeFields n3 x y n nn nnn := by
  unfold decode?
  rw [(encodeAddr_fields n3 nnn).1, (encodeAddr_fields n3 nnn).2]
  exact ⟨_, _, _, _, rfl⟩

/-- What the decoder looks at in a word of format REGIMM or REG. -/
theorem decode?_encodeRegByte (n3 : Nibble) (x : Reg) (nn : Byte) : ∃ y n nnn,
    decode? (encodeRegByte n3 x nn) = decodeFields n3 x y n nn nnn := by
  obtain ⟨h1, h2, h3⟩ := encodeRegByte_fields n3 x nn
  unfold decode?
  rw [h1, h2, h3, regOf_regField]
  exact ⟨_, _, _, rfl⟩

/-- What the decoder looks at in a word of format REGREG or REGREGN. -/
theorem decode?_encodeRegReg (n3 : Nibble) (x y : Reg) (n : Nibble) : ∃ nn nnn,
    decode? (encodeRegReg n3 x y n) = decodeFields n3 x y n nn nnn := by
  unfold decode?
  rw [encodeRegReg_fields]
  exact ⟨_, _, rfl⟩

/-- The decoder accepts a word exactly when it is one of a row (spec/30_encoding.md R64). -/
theorem decodeWord_eq_ok {op : Word} {i : Instr} : decodeWord op = .ok i ↔ decode? op = some i := by
  unfold decodeWord
  cases decode? op <;> simp

/-- The decoder rejects any other word with its raw fields (spec/30_encoding.md R66). -/
theorem decodeWord_eq_error {op : Word} {f : Fields} :
    decodeWord op = .error f ↔ decode? op = none ∧ f = fieldsOf op := by
  unfold decodeWord
  cases decode? op <;> simp [eq_comm]

end Sys2Proof
end

