-- ==== Sys2Proof/Laws/Display.lean ====
section
/-!
SUPPORT. What the drawing operations do, cell by cell: one lemma for a flip, one for a pixel, one for a row
and one for a whole sprite (spec/42_display.md R122 to R124).
-/

namespace Sys2Proof.Machine

theorem pixel_eq (fb : Framebuffer) {y x : Nat} (hy : y < 32) (hx : x < 64) :
    pixel fb y x = fb[y][x] := by
  simp [pixel, hy, hx]

theorem pixel_outside (fb : Framebuffer) {y x : Nat} (h : ¬ (y < 32 ∧ x < 64)) :
    pixel fb y x = false := by
  unfold pixel
  by_cases hy : y < 32
  · have hx : ¬ x < 64 := fun hx => h ⟨hy, hx⟩
    simp [hy, hx]
  · simp [hy]

/-- Two displays that show the same cells are the same display. -/
theorem framebuffer_ext {a b : Framebuffer}
    (h : ∀ y x, y < 32 → x < 64 → pixel a y x = pixel b y x) : a = b := by
  ext y hy x hx
  have := h y x hy hx
  rw [pixel_eq a hy hx, pixel_eq b hy hx] at this
  exact this

theorem pixel_clearFb (y x : Nat) : pixel clearFb y x = false := by
  by_cases h : y < 32 ∧ x < 64
  · rw [pixel_eq clearFb h.1 h.2]; simp [clearFb]
  · exact pixel_outside _ h

/-- A flip changes one cell of the display, and none if it lies outside. -/
theorem pixel_flipPixel (fb : Framebuffer) (y x y' x' : Nat) :
    pixel (flipPixel fb y x) y' x' =
      (pixel fb y' x' ^^ decide (y' = y ∧ x' = x ∧ y < 32 ∧ x < 64)) := by
  by_cases h' : y' < 32 ∧ x' < 64
  · by_cases hy : y < 32
    · rw [pixel_eq _ h'.1 h'.2, pixel_eq fb h'.1 h'.2]
      simp only [flipPixel, hy, Vector.getElem?_eq_getElem, Vector.getElem_setIfInBounds]
      by_cases hyy : y = y'
      · subst hyy
        simp only [if_true, Vector.getElem_setIfInBounds]
        by_cases hxx : x = x'
        · subst hxx; simp [pixel_eq fb hy h'.2, h'.2]
        · simp [hxx, Ne.symm hxx]
      · simp [hyy, Ne.symm hyy]
    · have : flipPixel fb y x = fb := by simp [flipPixel, hy]
      simp [this, hy]
  · rw [pixel_outside _ h', pixel_outside fb h']
    simp only [Bool.false_bne]
    symm
    simp only [decide_eq_false_iff_not]
    omega

/-- What drawing the first `k` columns of a row does: each cell under a set bit is flipped, and there is a
collision if one of those cells was set. -/
theorem drawColumns_spec (y x0 k : Nat) (b : Byte) (acc : Framebuffer × Bool) (hk : k ≤ 8)
    (hy : y < 32) :
    let out := (List.range k).foldl
      (fun acc c => drawPixel y (x0 + c) (b.getLsbD (7 - c)) acc) acc
    (∀ y' x', pixel out.1 y' x' =
      (pixel acc.1 y' x' ^^ (decide (y' = y ∧ x0 ≤ x' ∧ x' < x0 + k ∧ x' < 64) &&
        b.getLsbD (7 - (x' - x0))))) ∧
    (out.2 = true ↔ acc.2 = true ∨
      ∃ x', x0 ≤ x' ∧ x' < x0 + k ∧ x' < 64 ∧ b.getLsbD (7 - (x' - x0)) = true ∧
        pixel acc.1 y x' = true) := by
  induction k with
  | zero =>
    refine ⟨fun y' x' => ?_, ?_⟩
    · have : ¬ (y' = y ∧ x0 ≤ x' ∧ x' < x0 + 0 ∧ x' < 64) := by omega
      simp only [this, decide_false, Bool.false_and, Bool.bne_false, List.range_zero, List.foldl_nil]
    · constructor
      · exact .inl
      · rintro (h | ⟨x', h1, h2, -⟩)
        · exact h
        · omega
  | succ k ih =>
    obtain ⟨ih1, ih2⟩ := ih (by omega)
    simp only [List.range_succ, List.foldl_append, List.foldl_cons, List.foldl_nil]
    generalize hprev : (List.range k).foldl
      (fun acc c => drawPixel y (x0 + c) (b.getLsbD (7 - c)) acc) acc = prev at *
    unfold drawPixel
    split
    · rename_i hc
      simp only [Config.displayW] at hc
      refine ⟨fun y' x' => ?_, ?_⟩
      · simp only [pixel_flipPixel, ih1]
        by_cases hx : x' = x0 + k
        · subst hx
          by_cases hyy : y' = y
          · have : x0 + k - x0 = k := by omega
            simp [hyy, hy, hc, this]
          · simp [hyy]
        · have e1 : (x' < x0 + (k + 1)) = (x' < x0 + k) := by
            apply propext; omega
          simp only [e1]
          simp [hx]
      · have hold : pixel prev.1 y (x0 + k) = pixel acc.1 y (x0 + k) := by
          rw [ih1]
          have : ¬ (x0 + k < x0 + k) := by omega
          simp
        simp only [Bool.or_eq_true, ih2, hold]
        constructor
        · rintro ((h | ⟨x', h1, h2, h3, h4, h5⟩) | h)
          · exact .inl h
          · exact .inr ⟨x', h1, by omega, h3, h4, h5⟩
          · refine .inr ⟨x0 + k, by omega, by omega, hc.1, ?_, h⟩
            rw [Nat.add_sub_cancel_left]; exact hc.2
        · rintro (h | ⟨x', h1, h2, h3, h4, h5⟩)
          · exact .inl (.inl h)
          · by_cases hx : x' = x0 + k
            · subst hx; exact .inr h5
            · exact .inl (.inr ⟨x', h1, by omega, h3, h4, h5⟩)
    · rename_i hc
      simp only [Config.displayW, not_and] at hc
      have key : ∀ x', x' = x0 + k → x' < 64 → b.getLsbD (7 - (x' - x0)) = false := by
        intro x' hx hlt
        subst hx
        rw [Nat.add_sub_cancel_left]
        simpa using hc hlt
      refine ⟨fun y' x' => ?_, ?_⟩
      · rw [ih1]
        by_cases hx : x' = x0 + k
        · by_cases hlt : x' < 64
          · rw [key x' hx hlt]; simp
          · simp [hlt]
        · have e1 : (x' < x0 + (k + 1)) = (x' < x0 + k) := by
            apply propext; omega
          simp only [e1]
      · rw [ih2]
        constructor
        · rintro (h | ⟨x', h1, h2, h3, h4⟩)
          · exact .inl h
          · exact .inr ⟨x', h1, by omega, h3, h4⟩
        · rintro (h | ⟨x', h1, h2, h3, h4, h5⟩)
          · exact .inl h
          · by_cases hx : x' = x0 + k
            · rw [key x' hx h3] at h4; exact absurd h4 (by simp)
            · exact .inr ⟨x', h1, by omega, h3, h4, h5⟩

/-- What drawing one row of a sprite does. -/
theorem drawRow_spec (y x0 : Nat) (b : Byte) (acc : Framebuffer × Bool) :
    (∀ y' x', pixel (drawRow y x0 b acc).1 y' x' =
      (pixel acc.1 y' x' ^^ (decide (y' = y ∧ y < 32 ∧ x0 ≤ x' ∧ x' < x0 + 8 ∧ x' < 64) &&
        b.getLsbD (7 - (x' - x0))))) ∧
    ((drawRow y x0 b acc).2 = true ↔ acc.2 = true ∨
      ∃ x', y < 32 ∧ x0 ≤ x' ∧ x' < x0 + 8 ∧ x' < 64 ∧ b.getLsbD (7 - (x' - x0)) = true ∧
        pixel acc.1 y x' = true) := by
  unfold drawRow
  by_cases hy : y < 32
  · have h := drawColumns_spec y x0 8 b acc (le_refl 8) hy
    simp only [Config.displayH, hy, if_true, true_and]
    exact h
  · simp [Config.displayH, hy]

/-- What drawing a sprite from row `y0` does, cell by cell: the loop of R122 is the XOR of a picture, and
the collision says that a set bit of the picture met a set cell. -/
theorem drawRows_spec (bs : List Byte) (y0 x0 : Nat) (acc : Framebuffer × Bool) :
    (∀ y x, y < 32 → x < 64 → pixel (drawRows y0 x0 bs acc).1 y x =
      (pixel acc.1 y x ^^ spriteBit bs y0 x0 y x)) ∧
    ((drawRows y0 x0 bs acc).2 = true ↔ acc.2 = true ∨
      ∃ y x, y < 32 ∧ x < 64 ∧ spriteBit bs y0 x0 y x = true ∧
        pixel acc.1 y x = true) := by
  induction bs generalizing y0 acc with
  | nil =>
    have hno : ∀ y x, spriteBit [] y0 x0 y x = false := by
      intro y x
      simp [spriteBit]
    simp [drawRows, hno]
  | cons b bs ih =>
    obtain ⟨r1, r2⟩ := drawRow_spec y0 x0 b acc
    obtain ⟨i1, i2⟩ := ih (y0 + 1) (drawRow y0 x0 b acc)
    -- a cell of the picture is in the first row or in the rest
    have hbit : ∀ y x, spriteBit (b :: bs) y0 x0 y x =
        ((decide (y = y0 ∧ x0 ≤ x ∧ x < x0 + 8) && b.getLsbD (7 - (x - x0))) ||
          spriteBit bs (y0 + 1) x0 y x) := by
      intro y x
      unfold spriteBit
      by_cases hyy : y = y0
      · subst hyy
        have h1 : ¬ (y + 1 ≤ y ∧ y < y + 1 + bs.length ∧ x0 ≤ x ∧ x < x0 + 8) := by omega
        simp
      · by_cases hle : y0 + 1 ≤ y
        · have h3 : y - y0 = (y - (y0 + 1)) + 1 := by omega
          have h4 : (y0 ≤ y ∧ y < y0 + (bs.length + 1) ∧ x0 ≤ x ∧ x < x0 + 8) ↔
            (y0 + 1 ≤ y ∧ y < y0 + 1 + bs.length ∧ x0 ≤ x ∧ x < x0 + 8) := by omega
          simp only [h3, List.length_cons, List.getD_cons_succ, h4, hyy, false_and, decide_false, Bool.false_and,
            Bool.false_or]
        · have h5 : ¬ (y0 ≤ y ∧ y < y0 + (bs.length + 1) ∧ x0 ≤ x ∧ x < x0 + 8) := by omega
          have h6 : ¬ (y0 + 1 ≤ y ∧ y < y0 + 1 + bs.length ∧ x0 ≤ x ∧ x < x0 + 8) := by omega
          simp only [List.length_cons, h5, h6, hyy, false_and, decide_false, Bool.false_and, Bool.or_false]
    have hrow : ∀ y x, spriteBit bs (y0 + 1) x0 y x = true → y ≠ y0 := by
      intro y x h
      simp only [spriteBit, Bool.and_eq_true, decide_eq_true_eq] at h
      omega
    simp only [drawRows, hbit]
    refine ⟨fun y x hy hx => ?_, ?_⟩
    · rw [i1 y x hy hx, r1]
      by_cases hyy : y = y0
      · subst hyy
        have : spriteBit bs (y + 1) x0 y x = false := by
          by_contra h; exact hrow y x (by simpa using h) rfl
        simp [this, hy, hx]
      · simp [hyy]
    · rw [i2, r2]
      constructor
      · rintro ((h | ⟨x, h1, h2, h3, h4, h5, h6⟩) | ⟨y, x, h1, h2, h3, h4⟩)
        · exact .inl h
        · exact .inr ⟨y0, x, h1, h4, by simp [h2, h3, h5], h6⟩
        · refine .inr ⟨y, x, h1, h2, by simp [h3], ?_⟩
          rw [r1] at h4
          simpa [hrow y x h3] using h4
      · rintro (h | ⟨y, x, h1, h2, h3, h4⟩)
        · exact .inl (.inl h)
        · simp only [Bool.or_eq_true, Bool.and_eq_true, decide_eq_true_eq] at h3
          rcases h3 with ⟨⟨rfl, h5, h6⟩, h7⟩ | h3
          · exact .inl (.inr ⟨x, h1, h5, h6, h2, h7, h4⟩)
          · refine .inr ⟨y, x, h1, h2, h3, ?_⟩
            rw [r1]
            simpa [hrow y x h3] using h4

end Sys2Proof.Machine
end

