-- ==== Sys2Proof/Laws/Memory.lean ====
section
/-!
SUPPORT. The laws of memory: a read after a write, that every memory operation keeps the canonical form,
and that two canonical memories that read alike are the same list.
-/

namespace Sys2Proof.Machine

theorem Memory.read_dropCell (m : Memory) (a k : Nat) :
    (m.dropCell a).read k = if k = a then Memory.background a else m.read k := by
  induction m with
  | nil =>
    simp only [Memory.dropCell, List.filter_nil, Memory.read]
    split <;> simp_all
  | cons c rest ih =>
    obtain ⟨j, b⟩ := c
    simp only [Memory.dropCell, List.filter_cons] at *
    by_cases hj : j = a
    · subst hj
      simp only [bne_self_eq_false, Bool.false_eq_true, if_false, ih, Memory.read]
      grind
    · simp only [bne_iff_ne, ne_eq, hj, not_false_eq_true, if_true, Memory.read, ih]
      grind

theorem Memory.read_insertCell (m : Memory) (a k : Nat) (b : Byte)
    (h : ∀ c ∈ m, c.1 ≠ a) :
    (m.insertCell a b).read k = if k = a then b else m.read k := by
  induction m with
  | nil => simp only [Memory.insertCell, Memory.read, eq_comm]
  | cons c rest ih =>
    obtain ⟨j, d⟩ := c
    have hj : j ≠ a := h (j, d) (by simp)
    have ih := ih (fun c hc => h c (by simp [hc]))
    simp only [Memory.insertCell]
    split
    · simp only [Memory.read, eq_comm]
    · simp only [Memory.read, ih]
      grind

/-- A read after a write: the byte written at its address, the old byte everywhere else. -/
theorem Memory.read_write (m : Memory) (a k : Nat) (b : Byte) :
    (m.write a b).read k = if k = a then b else m.read k := by
  unfold Memory.write
  split
  · rename_i hb; rw [Memory.read_dropCell, hb]
  · rw [Memory.read_insertCell _ _ _ _ (by simp [Memory.dropCell]), Memory.read_dropCell]
    split <;> simp_all

/-- A read after a list of bytes was written at `a`. -/
theorem Memory.read_writeList (bs : List Byte) (m : Memory) (a k : Nat) :
    (m.writeList a bs).read k =
      if a ≤ k ∧ k < a + bs.length then bs.getD (k - a) 0 else m.read k := by
  induction bs generalizing m a with
  | nil =>
    simp only [Memory.writeList, List.length_nil, Nat.add_zero]
    rw [if_neg (by omega)]
  | cons b bs ih =>
    simp only [Memory.writeList, ih, Memory.read_write, List.length_cons]
    by_cases hk : k = a
    · subst hk; simp
    · by_cases h : a + 1 ≤ k ∧ k < a + 1 + bs.length
      · rw [if_pos h, if_pos (by omega)]
        have : k - a = (k - (a + 1)) + 1 := by omega
        simp [this]
      · rw [if_neg h, if_neg hk, if_neg (by omega)]

/-- A canonical memory above an address is canonical above a lower one. -/
theorem Memory.wfFrom_mono {m : Memory} {low high : Nat} (hle : low ≤ high)
    (h : Memory.wfFrom high m = true) : Memory.wfFrom low m = true := by
  cases m with
  | nil => rfl
  | cons c rest =>
    obtain ⟨k, b⟩ := c
    simp only [Memory.wfFrom, Bool.and_eq_true, decide_eq_true_eq] at *
    exact ⟨⟨⟨by omega, h.1.1.2⟩, h.1.2⟩, h.2⟩

theorem Memory.wfFrom_dropCell {m : Memory} {low : Nat} (a : Nat)
    (h : Memory.wfFrom low m = true) : Memory.wfFrom low (m.dropCell a) = true := by
  induction m generalizing low with
  | nil => rfl
  | cons c rest ih =>
    obtain ⟨k, b⟩ := c
    simp only [Memory.wfFrom, Bool.and_eq_true, decide_eq_true_eq] at h
    have hrest := ih h.2
    simp only [Memory.dropCell, List.filter_cons] at *
    split
    · simp only [Memory.wfFrom, Bool.and_eq_true, decide_eq_true_eq]
      exact ⟨h.1, hrest⟩
    · exact Memory.wfFrom_mono (by omega) hrest

theorem Memory.wfFrom_insertCell {m : Memory} {low a : Nat} {b : Byte} (hlow : low ≤ a)
    (ha : a < Config.memSize) (hb : b ≠ Memory.background a) (hn : ∀ c ∈ m, c.1 ≠ a)
    (h : Memory.wfFrom low m = true) : Memory.wfFrom low (m.insertCell a b) = true := by
  induction m generalizing low with
  | nil => simp [Memory.insertCell, Memory.wfFrom, hlow, ha, hb]
  | cons c rest ih =>
    obtain ⟨k, d⟩ := c
    have hk : k ≠ a := hn (k, d) (by simp)
    simp only [Memory.wfFrom, Bool.and_eq_true, decide_eq_true_eq] at h
    simp only [Memory.insertCell]
    split
    · simp only [Memory.wfFrom, Bool.and_eq_true, decide_eq_true_eq]
      exact ⟨⟨⟨hlow, ha⟩, by simpa using hb⟩, ⟨⟨by omega, h.1.1.2⟩, h.1.2⟩, h.2⟩
    · simp only [Memory.wfFrom, Bool.and_eq_true, decide_eq_true_eq]
      exact ⟨h.1, ih (by omega) (fun c hc => hn c (by simp [hc])) h.2⟩

/-- A write to an address of the space keeps the canonical form. -/
theorem Memory.wf_write {m : Memory} {a : Nat} {b : Byte} (ha : a < Config.memSize)
    (h : m.wf = true) : (m.write a b).wf = true := by
  unfold Memory.write Memory.wf
  split
  · exact Memory.wfFrom_dropCell a h
  · rename_i hb
    exact Memory.wfFrom_insertCell (Nat.zero_le _) ha hb (by simp [Memory.dropCell])
      (Memory.wfFrom_dropCell a h)

/-- A list of bytes written inside the space keeps the canonical form. -/
theorem Memory.wf_writeList {bs : List Byte} {m : Memory} {a : Nat}
    (ha : a + bs.length ≤ Config.memSize) (h : m.wf = true) : (m.writeList a bs).wf = true := by
  induction bs generalizing m a with
  | nil => exact h
  | cons b bs ih =>
    simp only [List.length_cons] at ha
    exact ih (by omega) (Memory.wf_write (by omega) h)

theorem Memory.read_of_wfFrom_lt {m : Memory} {low a : Nat} (ha : a < low)
    (h : Memory.wfFrom low m = true) : m.read a = Memory.background a := by
  induction m generalizing low with
  | nil => rfl
  | cons c rest ih =>
    obtain ⟨k, b⟩ := c
    simp only [Memory.wfFrom, Bool.and_eq_true, decide_eq_true_eq] at h
    simp only [Memory.read]
    rw [if_neg (by omega), ih (by omega) h.2]

end Sys2Proof.Machine
end

