-- ==== Sys2Proof/Laws/State.lean ====
section
/-!
SUPPORT. What each update of the state does to each field: one lemma a field, true by definition, so that no
later proof unfolds a record update; and what the observers read after an update.
-/

namespace Sys2Proof.Machine

@[simp] theorem State.setReg_v (s : State) (r : Reg) (b : Byte) :
    (s.setReg r b).v = s.v.set r.val b := rfl
@[simp] theorem State.setReg_i (s : State) (r : Reg) (b : Byte) : (s.setReg r b).i = s.i := rfl
@[simp] theorem State.setReg_pc (s : State) (r : Reg) (b : Byte) : (s.setReg r b).pc = s.pc := rfl
@[simp] theorem State.setReg_stack (s : State) (r : Reg) (b : Byte) :
    (s.setReg r b).stack = s.stack := rfl
@[simp] theorem State.setReg_dt (s : State) (r : Reg) (b : Byte) : (s.setReg r b).dt = s.dt := rfl
@[simp] theorem State.setReg_st (s : State) (r : Reg) (b : Byte) : (s.setReg r b).st = s.st := rfl
@[simp] theorem State.setReg_mem (s : State) (r : Reg) (b : Byte) :
    (s.setReg r b).mem = s.mem := rfl
@[simp] theorem State.setReg_fb (s : State) (r : Reg) (b : Byte) : (s.setReg r b).fb = s.fb := rfl
@[simp] theorem State.setReg_key (s : State) (r : Reg) (b : Byte) :
    (s.setReg r b).key = s.key := rfl
@[simp] theorem State.setReg_dirty (s : State) (r : Reg) (b : Byte) :
    (s.setReg r b).dirty = s.dirty := rfl
@[simp] theorem State.setReg_fault (s : State) (r : Reg) (b : Byte) :
    (s.setReg r b).fault = s.fault := rfl
@[simp] theorem State.setReg_drawInputs (s : State) (r : Reg) (b : Byte) :
    (s.setReg r b).drawInputs = s.drawInputs := rfl
@[simp] theorem State.setReg_drawCount (s : State) (r : Reg) (b : Byte) :
    (s.setReg r b).drawCount = s.drawCount := rfl

@[simp] theorem State.setFlag_v (s : State) (f : Bool) :
    (s.setFlag f).v = s.v.set 15 (flagByte f) := rfl
@[simp] theorem State.setFlag_i (s : State) (f : Bool) : (s.setFlag f).i = s.i := rfl
@[simp] theorem State.setFlag_pc (s : State) (f : Bool) : (s.setFlag f).pc = s.pc := rfl
@[simp] theorem State.setFlag_stack (s : State) (f : Bool) : (s.setFlag f).stack = s.stack := rfl
@[simp] theorem State.setFlag_dt (s : State) (f : Bool) : (s.setFlag f).dt = s.dt := rfl
@[simp] theorem State.setFlag_st (s : State) (f : Bool) : (s.setFlag f).st = s.st := rfl
@[simp] theorem State.setFlag_mem (s : State) (f : Bool) : (s.setFlag f).mem = s.mem := rfl
@[simp] theorem State.setFlag_fb (s : State) (f : Bool) : (s.setFlag f).fb = s.fb := rfl
@[simp] theorem State.setFlag_key (s : State) (f : Bool) : (s.setFlag f).key = s.key := rfl
@[simp] theorem State.setFlag_dirty (s : State) (f : Bool) : (s.setFlag f).dirty = s.dirty := rfl
@[simp] theorem State.setFlag_fault (s : State) (f : Bool) : (s.setFlag f).fault = s.fault := rfl
@[simp] theorem State.setFlag_drawInputs (s : State) (f : Bool) :
    (s.setFlag f).drawInputs = s.drawInputs := rfl
@[simp] theorem State.setFlag_drawCount (s : State) (f : Bool) :
    (s.setFlag f).drawCount = s.drawCount := rfl

@[simp] theorem State.setIndex_v (s : State) (a : Word) : (s.setIndex a).v = s.v := rfl
@[simp] theorem State.setIndex_i (s : State) (a : Word) : (s.setIndex a).i = a := rfl
@[simp] theorem State.setIndex_pc (s : State) (a : Word) : (s.setIndex a).pc = s.pc := rfl
@[simp] theorem State.setIndex_stack (s : State) (a : Word) : (s.setIndex a).stack = s.stack := rfl
@[simp] theorem State.setIndex_dt (s : State) (a : Word) : (s.setIndex a).dt = s.dt := rfl
@[simp] theorem State.setIndex_st (s : State) (a : Word) : (s.setIndex a).st = s.st := rfl
@[simp] theorem State.setIndex_mem (s : State) (a : Word) : (s.setIndex a).mem = s.mem := rfl
@[simp] theorem State.setIndex_fb (s : State) (a : Word) : (s.setIndex a).fb = s.fb := rfl
@[simp] theorem State.setIndex_key (s : State) (a : Word) : (s.setIndex a).key = s.key := rfl
@[simp] theorem State.setIndex_dirty (s : State) (a : Word) : (s.setIndex a).dirty = s.dirty := rfl
@[simp] theorem State.setIndex_fault (s : State) (a : Word) : (s.setIndex a).fault = s.fault := rfl
@[simp] theorem State.setIndex_drawInputs (s : State) (a : Word) :
    (s.setIndex a).drawInputs = s.drawInputs := rfl
@[simp] theorem State.setIndex_drawCount (s : State) (a : Word) :
    (s.setIndex a).drawCount = s.drawCount := rfl

@[simp] theorem State.setPc_v (s : State) (a : Word) : (s.setPc a).v = s.v := rfl
@[simp] theorem State.setPc_i (s : State) (a : Word) : (s.setPc a).i = s.i := rfl
@[simp] theorem State.setPc_pc (s : State) (a : Word) : (s.setPc a).pc = a := rfl
@[simp] theorem State.setPc_stack (s : State) (a : Word) : (s.setPc a).stack = s.stack := rfl
@[simp] theorem State.setPc_dt (s : State) (a : Word) : (s.setPc a).dt = s.dt := rfl
@[simp] theorem State.setPc_st (s : State) (a : Word) : (s.setPc a).st = s.st := rfl
@[simp] theorem State.setPc_mem (s : State) (a : Word) : (s.setPc a).mem = s.mem := rfl
@[simp] theorem State.setPc_fb (s : State) (a : Word) : (s.setPc a).fb = s.fb := rfl
@[simp] theorem State.setPc_key (s : State) (a : Word) : (s.setPc a).key = s.key := rfl
@[simp] theorem State.setPc_dirty (s : State) (a : Word) : (s.setPc a).dirty = s.dirty := rfl
@[simp] theorem State.setPc_fault (s : State) (a : Word) : (s.setPc a).fault = s.fault := rfl
@[simp] theorem State.setPc_drawInputs (s : State) (a : Word) :
    (s.setPc a).drawInputs = s.drawInputs := rfl
@[simp] theorem State.setPc_drawCount (s : State) (a : Word) :
    (s.setPc a).drawCount = s.drawCount := rfl

@[simp] theorem State.advance_v (s : State) : s.advance.v = s.v := rfl
@[simp] theorem State.advance_i (s : State) : s.advance.i = s.i := rfl
@[simp] theorem State.advance_pc (s : State) : s.advance.pc = s.pc + 2 := rfl
@[simp] theorem State.advance_stack (s : State) : s.advance.stack = s.stack := rfl
@[simp] theorem State.advance_dt (s : State) : s.advance.dt = s.dt := rfl
@[simp] theorem State.advance_st (s : State) : s.advance.st = s.st := rfl
@[simp] theorem State.advance_mem (s : State) : s.advance.mem = s.mem := rfl
@[simp] theorem State.advance_fb (s : State) : s.advance.fb = s.fb := rfl
@[simp] theorem State.advance_key (s : State) : s.advance.key = s.key := rfl
@[simp] theorem State.advance_dirty (s : State) : s.advance.dirty = s.dirty := rfl
@[simp] theorem State.advance_fault (s : State) : s.advance.fault = s.fault := rfl
@[simp] theorem State.advance_drawInputs (s : State) : s.advance.drawInputs = s.drawInputs := rfl
@[simp] theorem State.advance_drawCount (s : State) : s.advance.drawCount = s.drawCount := rfl

@[simp] theorem State.push_v (s : State) (a : Word) : (s.push a).v = s.v := rfl
@[simp] theorem State.push_i (s : State) (a : Word) : (s.push a).i = s.i := rfl
@[simp] theorem State.push_pc (s : State) (a : Word) : (s.push a).pc = s.pc := rfl
@[simp] theorem State.push_stack (s : State) (a : Word) : (s.push a).stack = a :: s.stack := rfl
@[simp] theorem State.push_dt (s : State) (a : Word) : (s.push a).dt = s.dt := rfl
@[simp] theorem State.push_st (s : State) (a : Word) : (s.push a).st = s.st := rfl
@[simp] theorem State.push_mem (s : State) (a : Word) : (s.push a).mem = s.mem := rfl
@[simp] theorem State.push_fb (s : State) (a : Word) : (s.push a).fb = s.fb := rfl
@[simp] theorem State.push_key (s : State) (a : Word) : (s.push a).key = s.key := rfl
@[simp] theorem State.push_dirty (s : State) (a : Word) : (s.push a).dirty = s.dirty := rfl
@[simp] theorem State.push_fault (s : State) (a : Word) : (s.push a).fault = s.fault := rfl
@[simp] theorem State.push_drawInputs (s : State) (a : Word) :
    (s.push a).drawInputs = s.drawInputs := rfl
@[simp] theorem State.push_drawCount (s : State) (a : Word) :
    (s.push a).drawCount = s.drawCount := rfl

@[simp] theorem State.writeBytes_v (s : State) (a : Nat) (bs : List Byte) :
    (s.writeBytes a bs).v = s.v := rfl
@[simp] theorem State.writeBytes_i (s : State) (a : Nat) (bs : List Byte) :
    (s.writeBytes a bs).i = s.i := rfl
@[simp] theorem State.writeBytes_pc (s : State) (a : Nat) (bs : List Byte) :
    (s.writeBytes a bs).pc = s.pc := rfl
@[simp] theorem State.writeBytes_stack (s : State) (a : Nat) (bs : List Byte) :
    (s.writeBytes a bs).stack = s.stack := rfl
@[simp] theorem State.writeBytes_dt (s : State) (a : Nat) (bs : List Byte) :
    (s.writeBytes a bs).dt = s.dt := rfl
@[simp] theorem State.writeBytes_st (s : State) (a : Nat) (bs : List Byte) :
    (s.writeBytes a bs).st = s.st := rfl
@[simp] theorem State.writeBytes_mem (s : State) (a : Nat) (bs : List Byte) :
    (s.writeBytes a bs).mem = s.mem.writeList a bs := rfl
@[simp] theorem State.writeBytes_fb (s : State) (a : Nat) (bs : List Byte) :
    (s.writeBytes a bs).fb = s.fb := rfl
@[simp] theorem State.writeBytes_key (s : State) (a : Nat) (bs : List Byte) :
    (s.writeBytes a bs).key = s.key := rfl
@[simp] theorem State.writeBytes_dirty (s : State) (a : Nat) (bs : List Byte) :
    (s.writeBytes a bs).dirty = s.dirty := rfl
@[simp] theorem State.writeBytes_fault (s : State) (a : Nat) (bs : List Byte) :
    (s.writeBytes a bs).fault = s.fault := rfl
@[simp] theorem State.writeBytes_drawInputs (s : State) (a : Nat) (bs : List Byte) :
    (s.writeBytes a bs).drawInputs = s.drawInputs := rfl
@[simp] theorem State.writeBytes_drawCount (s : State) (a : Nat) (bs : List Byte) :
    (s.writeBytes a bs).drawCount = s.drawCount := rfl

@[simp] theorem State.tickTimers_v (s : State) : s.tickTimers.v = s.v := rfl
@[simp] theorem State.tickTimers_i (s : State) : s.tickTimers.i = s.i := rfl
@[simp] theorem State.tickTimers_pc (s : State) : s.tickTimers.pc = s.pc := rfl
@[simp] theorem State.tickTimers_stack (s : State) : s.tickTimers.stack = s.stack := rfl
@[simp] theorem State.tickTimers_dt (s : State) : s.tickTimers.dt = countDown s.dt := rfl
@[simp] theorem State.tickTimers_st (s : State) : s.tickTimers.st = countDown s.st := rfl
@[simp] theorem State.tickTimers_mem (s : State) : s.tickTimers.mem = s.mem := rfl
@[simp] theorem State.tickTimers_fb (s : State) : s.tickTimers.fb = s.fb := rfl
@[simp] theorem State.tickTimers_key (s : State) : s.tickTimers.key = s.key := rfl
@[simp] theorem State.tickTimers_dirty (s : State) : s.tickTimers.dirty = s.dirty := rfl
@[simp] theorem State.tickTimers_fault (s : State) : s.tickTimers.fault = s.fault := rfl
@[simp] theorem State.tickTimers_drawInputs (s : State) : s.tickTimers.drawInputs = s.drawInputs := rfl
@[simp] theorem State.tickTimers_drawCount (s : State) : s.tickTimers.drawCount = s.drawCount := rfl

@[simp] theorem State.clearDirty_v (s : State) : s.clearDirty.v = s.v := rfl
@[simp] theorem State.clearDirty_i (s : State) : s.clearDirty.i = s.i := rfl
@[simp] theorem State.clearDirty_pc (s : State) : s.clearDirty.pc = s.pc := rfl
@[simp] theorem State.clearDirty_stack (s : State) : s.clearDirty.stack = s.stack := rfl
@[simp] theorem State.clearDirty_dt (s : State) : s.clearDirty.dt = s.dt := rfl
@[simp] theorem State.clearDirty_st (s : State) : s.clearDirty.st = s.st := rfl
@[simp] theorem State.clearDirty_mem (s : State) : s.clearDirty.mem = s.mem := rfl
@[simp] theorem State.clearDirty_fb (s : State) : s.clearDirty.fb = s.fb := rfl
@[simp] theorem State.clearDirty_key (s : State) : s.clearDirty.key = s.key := rfl
@[simp] theorem State.clearDirty_dirty (s : State) : s.clearDirty.dirty = false := rfl
@[simp] theorem State.clearDirty_fault (s : State) : s.clearDirty.fault = s.fault := rfl
@[simp] theorem State.clearDirty_drawInputs (s : State) : s.clearDirty.drawInputs = s.drawInputs := rfl
@[simp] theorem State.clearDirty_drawCount (s : State) : s.clearDirty.drawCount = s.drawCount := rfl

theorem State.skipIf_eq (s : State) (c : Bool) :
    s.skipIf c = s.setPc (if c then s.pc + 2 else s.pc) := by cases c <;> rfl

@[simp] theorem State.skipIf_v (s : State) (c : Bool) : (s.skipIf c).v = s.v := by
  rw [State.skipIf_eq]; rfl
@[simp] theorem State.skipIf_i (s : State) (c : Bool) : (s.skipIf c).i = s.i := by
  rw [State.skipIf_eq]; rfl
@[simp] theorem State.skipIf_pc (s : State) (c : Bool) :
    (s.skipIf c).pc = if c then s.pc + 2 else s.pc := by
  rw [State.skipIf_eq]; rfl
@[simp] theorem State.skipIf_stack (s : State) (c : Bool) : (s.skipIf c).stack = s.stack := by
  rw [State.skipIf_eq]; rfl
@[simp] theorem State.skipIf_dt (s : State) (c : Bool) : (s.skipIf c).dt = s.dt := by
  rw [State.skipIf_eq]; rfl
@[simp] theorem State.skipIf_st (s : State) (c : Bool) : (s.skipIf c).st = s.st := by
  rw [State.skipIf_eq]; rfl
@[simp] theorem State.skipIf_mem (s : State) (c : Bool) : (s.skipIf c).mem = s.mem := by
  rw [State.skipIf_eq]; rfl
@[simp] theorem State.skipIf_fb (s : State) (c : Bool) : (s.skipIf c).fb = s.fb := by
  rw [State.skipIf_eq]; rfl
@[simp] theorem State.skipIf_key (s : State) (c : Bool) : (s.skipIf c).key = s.key := by
  rw [State.skipIf_eq]; rfl
@[simp] theorem State.skipIf_dirty (s : State) (c : Bool) : (s.skipIf c).dirty = s.dirty := by
  rw [State.skipIf_eq]; rfl
@[simp] theorem State.skipIf_fault (s : State) (c : Bool) : (s.skipIf c).fault = s.fault := by
  rw [State.skipIf_eq]; rfl
@[simp] theorem State.skipIf_drawInputs (s : State) (c : Bool) :
    (s.skipIf c).drawInputs = s.drawInputs := by
  rw [State.skipIf_eq]; rfl
@[simp] theorem State.skipIf_drawCount (s : State) (c : Bool) :
    (s.skipIf c).drawCount = s.drawCount := by
  rw [State.skipIf_eq]; rfl

@[simp] theorem State.afterDraw_v (s : State) : s.afterDraw.v = s.v := by
  unfold State.afterDraw; split <;> rfl
@[simp] theorem State.afterDraw_i (s : State) : s.afterDraw.i = s.i := by
  unfold State.afterDraw; split <;> rfl
@[simp] theorem State.afterDraw_pc (s : State) : s.afterDraw.pc = s.pc := by
  unfold State.afterDraw; split <;> rfl
@[simp] theorem State.afterDraw_stack (s : State) : s.afterDraw.stack = s.stack := by
  unfold State.afterDraw; split <;> rfl
@[simp] theorem State.afterDraw_dt (s : State) : s.afterDraw.dt = s.dt := by
  unfold State.afterDraw; split <;> rfl
@[simp] theorem State.afterDraw_st (s : State) : s.afterDraw.st = s.st := by
  unfold State.afterDraw; split <;> rfl
@[simp] theorem State.afterDraw_mem (s : State) : s.afterDraw.mem = s.mem := by
  unfold State.afterDraw; split <;> rfl
@[simp] theorem State.afterDraw_fb (s : State) : s.afterDraw.fb = s.fb := by
  unfold State.afterDraw; split <;> rfl
@[simp] theorem State.afterDraw_key (s : State) : s.afterDraw.key = s.key := by
  unfold State.afterDraw; split <;> rfl
@[simp] theorem State.afterDraw_dirty (s : State) : s.afterDraw.dirty = s.dirty := by
  unfold State.afterDraw; split <;> rfl
@[simp] theorem State.afterDraw_fault (s : State) : s.afterDraw.fault = s.fault := by
  unfold State.afterDraw; split <;> rfl
@[simp] theorem State.afterDraw_drawInputs (s : State) : s.afterDraw.drawInputs = s.drawInputs.tail := by
  unfold State.afterDraw; split <;> simp_all
@[simp] theorem State.afterDraw_drawCount (s : State) :
    s.afterDraw.drawCount = if s.drawInputs = [] then s.drawCount + 1 else s.drawCount := by
  unfold State.afterDraw; split <;> simp_all

@[simp] theorem State.setKey_v (s : State) (n : Nat) (b : Bool) : (s.setKey n b).v = s.v := by
  unfold State.setKey; split <;> rfl
@[simp] theorem State.setKey_i (s : State) (n : Nat) (b : Bool) : (s.setKey n b).i = s.i := by
  unfold State.setKey; split <;> rfl
@[simp] theorem State.setKey_pc (s : State) (n : Nat) (b : Bool) : (s.setKey n b).pc = s.pc := by
  unfold State.setKey; split <;> rfl
@[simp] theorem State.setKey_stack (s : State) (n : Nat) (b : Bool) :
    (s.setKey n b).stack = s.stack := by
  unfold State.setKey; split <;> rfl
@[simp] theorem State.setKey_dt (s : State) (n : Nat) (b : Bool) : (s.setKey n b).dt = s.dt := by
  unfold State.setKey; split <;> rfl
@[simp] theorem State.setKey_st (s : State) (n : Nat) (b : Bool) : (s.setKey n b).st = s.st := by
  unfold State.setKey; split <;> rfl
@[simp] theorem State.setKey_mem (s : State) (n : Nat) (b : Bool) : (s.setKey n b).mem = s.mem := by
  unfold State.setKey; split <;> rfl
@[simp] theorem State.setKey_fb (s : State) (n : Nat) (b : Bool) : (s.setKey n b).fb = s.fb := by
  unfold State.setKey; split <;> rfl
@[simp] theorem State.setKey_dirty (s : State) (n : Nat) (b : Bool) :
    (s.setKey n b).dirty = s.dirty := by
  unfold State.setKey; split <;> rfl
@[simp] theorem State.setKey_fault (s : State) (n : Nat) (b : Bool) :
    (s.setKey n b).fault = s.fault := by
  unfold State.setKey; split <;> rfl
@[simp] theorem State.setKey_drawInputs (s : State) (n : Nat) (b : Bool) :
    (s.setKey n b).drawInputs = s.drawInputs := by
  unfold State.setKey; split <;> rfl
@[simp] theorem State.setKey_drawCount (s : State) (n : Nat) (b : Bool) :
    (s.setKey n b).drawCount = s.drawCount := by
  unfold State.setKey; split <;> rfl

@[simp] theorem State.loadProgram_v (s : State) (bs : List Byte) : (s.loadProgram bs).v = s.v := by
  unfold State.loadProgram; split <;> rfl
@[simp] theorem State.loadProgram_i (s : State) (bs : List Byte) : (s.loadProgram bs).i = s.i := by
  unfold State.loadProgram; split <;> rfl
@[simp] theorem State.loadProgram_pc (s : State) (bs : List Byte) :
    (s.loadProgram bs).pc = s.pc := by
  unfold State.loadProgram; split <;> rfl
@[simp] theorem State.loadProgram_stack (s : State) (bs : List Byte) :
    (s.loadProgram bs).stack = s.stack := by
  unfold State.loadProgram; split <;> rfl
@[simp] theorem State.loadProgram_dt (s : State) (bs : List Byte) :
    (s.loadProgram bs).dt = s.dt := by
  unfold State.loadProgram; split <;> rfl
@[simp] theorem State.loadProgram_st (s : State) (bs : List Byte) :
    (s.loadProgram bs).st = s.st := by
  unfold State.loadProgram; split <;> rfl
@[simp] theorem State.loadProgram_fb (s : State) (bs : List Byte) :
    (s.loadProgram bs).fb = s.fb := by
  unfold State.loadProgram; split <;> rfl
@[simp] theorem State.loadProgram_key (s : State) (bs : List Byte) :
    (s.loadProgram bs).key = s.key := by
  unfold State.loadProgram; split <;> rfl
@[simp] theorem State.loadProgram_dirty (s : State) (bs : List Byte) :
    (s.loadProgram bs).dirty = s.dirty := by
  unfold State.loadProgram; split <;> rfl
@[simp] theorem State.loadProgram_fault (s : State) (bs : List Byte) :
    (s.loadProgram bs).fault = s.fault := by
  unfold State.loadProgram; split <;> rfl
@[simp] theorem State.loadProgram_drawInputs (s : State) (bs : List Byte) :
    (s.loadProgram bs).drawInputs = s.drawInputs := by
  unfold State.loadProgram; split <;> rfl
@[simp] theorem State.loadProgram_drawCount (s : State) (bs : List Byte) :
    (s.loadProgram bs).drawCount = s.drawCount := by
  unfold State.loadProgram; split <;> rfl

/-- A register after a register was written. -/
@[simp] theorem State.reg_setReg (s : State) (x r : Reg) (b : Byte) :
    (s.setReg x b).reg r = if r = x then b else s.reg r := by
  simp only [State.reg, State.setReg, Vector.getElem_set]
  by_cases h : r = x
  · simp [h]
  · have : x.val ≠ r.val := fun e => h (Fin.ext e.symm)
    simp [h, this]

@[simp] theorem State.reg_setFlag (s : State) (f : Bool) (r : Reg) :
    (s.setFlag f).reg r = if r = 15 then flagByte f else s.reg r :=
  State.reg_setReg s 15 r (flagByte f)

/-- A register after a flag-writing instruction: the flag wins at `VF` (spec/10_state.md R14). -/
theorem State.reg_writeWithFlag (s : State) (x r : Reg) (b : Byte) (f : Bool) :
    (s.writeWithFlag x b f).reg r =
      if r = 15 then flagByte f else if r = x then b else s.reg r := by
  simp [State.writeWithFlag]

/-- Two states hold the same registers if every register reads alike. -/
theorem regs_ext {a b : Vector Byte 16} (h : ∀ r : Reg, a[r.val] = b[r.val]) : a = b := by
  ext k hk : 1
  exact h ⟨k, hk⟩

@[simp] theorem State.writeWithFlag_i (s : State) (x : Reg) (b : Byte) (f : Bool) :
    (s.writeWithFlag x b f).i = s.i := rfl
@[simp] theorem State.writeWithFlag_pc (s : State) (x : Reg) (b : Byte) (f : Bool) :
    (s.writeWithFlag x b f).pc = s.pc := rfl
@[simp] theorem State.writeWithFlag_stack (s : State) (x : Reg) (b : Byte) (f : Bool) :
    (s.writeWithFlag x b f).stack = s.stack := rfl
@[simp] theorem State.writeWithFlag_dt (s : State) (x : Reg) (b : Byte) (f : Bool) :
    (s.writeWithFlag x b f).dt = s.dt := rfl
@[simp] theorem State.writeWithFlag_st (s : State) (x : Reg) (b : Byte) (f : Bool) :
    (s.writeWithFlag x b f).st = s.st := rfl
@[simp] theorem State.writeWithFlag_mem (s : State) (x : Reg) (b : Byte) (f : Bool) :
    (s.writeWithFlag x b f).mem = s.mem := rfl
@[simp] theorem State.writeWithFlag_fb (s : State) (x : Reg) (b : Byte) (f : Bool) :
    (s.writeWithFlag x b f).fb = s.fb := rfl
@[simp] theorem State.writeWithFlag_key (s : State) (x : Reg) (b : Byte) (f : Bool) :
    (s.writeWithFlag x b f).key = s.key := rfl
@[simp] theorem State.writeWithFlag_dirty (s : State) (x : Reg) (b : Byte) (f : Bool) :
    (s.writeWithFlag x b f).dirty = s.dirty := rfl
@[simp] theorem State.writeWithFlag_fault (s : State) (x : Reg) (b : Byte) (f : Bool) :
    (s.writeWithFlag x b f).fault = s.fault := rfl
@[simp] theorem State.writeWithFlag_drawInputs (s : State) (x : Reg) (b : Byte) (f : Bool) :
    (s.writeWithFlag x b f).drawInputs = s.drawInputs := rfl
@[simp] theorem State.writeWithFlag_drawCount (s : State) (x : Reg) (b : Byte) (f : Bool) :
    (s.writeWithFlag x b f).drawCount = s.drawCount := rfl

/-- The observers read only their own field. -/
theorem State.reg_congr {s t : State} (h : t.v = s.v) (r : Reg) : t.reg r = s.reg r := by
  simp [State.reg, h]

theorem State.readByte_congr {s t : State} (h : t.mem = s.mem) (a : Nat) :
    t.readByte a = s.readByte a := by
  simp [State.readByte, h]

theorem State.keyDown_congr {s t : State} (h : t.key = s.key) (k : Nat) :
    t.keyDown k = s.keyDown k := by
  simp [State.keyDown, h]

/-- A key after the host pressed or released one: an index past 15 is ignored (spec/44_keypad.md R145). -/
theorem State.keyDown_setKey (s : State) (n k : Nat) (b : Bool) :
    (s.setKey n b).keyDown k = if k = n ∧ n < 16 then b else s.keyDown k := by
  unfold State.setKey State.keyDown
  by_cases hn : n < 16
  · by_cases hk : k < 16
    · simp only [Config.numKeys, hn, if_true, hk, Vector.getElem?_eq_getElem, and_true,
        Vector.getElem_setIfInBounds, Option.getD_some]
      by_cases h : n = k
      · simp [h]
      · simp [h, Ne.symm h]
    · have : ¬ k = n := by omega
      simp [Config.numKeys, hn, hk, this]
  · simp [Config.numKeys, hn]

/-- A byte of memory after a list of bytes was written at `a`. -/
theorem State.readByte_writeBytes (s : State) (a k : Nat) (bs : List Byte) :
    (s.writeBytes a bs).readByte k =
      if a ≤ k ∧ k < a + bs.length then bs.getD (k - a) 0 else s.readByte k :=
  Memory.read_writeList bs s.mem a k

/-- A key number past 15 sets nothing. -/
theorem State.setKey_outside (s : State) {n : Nat} (b : Bool) (h : ¬ n < 16) : s.setKey n b = s := by
  simp [State.setKey, Config.numKeys, h]

/-- The capacity in numbers: 3584 bytes. -/
theorem fitsProgram_eq (bs : List Byte) : fitsProgram bs = decide (bs.length ≤ 3584) := rfl

/-- A load that fits is a write at 0x200; a load that does not changes nothing. -/
theorem State.loadProgram_eq (s : State) (bs : List Byte) :
    s.loadProgram bs = if bs.length ≤ 3584 then s.writeBytes 512 bs else s := by
  unfold State.loadProgram
  rw [fitsProgram_eq]
  by_cases h : bs.length ≤ 3584
  · rw [if_pos h, if_pos (by simpa using h)]; rfl
  · rw [if_neg h, if_neg (by simpa using h)]

end Sys2Proof.Machine
end

