-- ==== Sys2Proof/Laws/Ops.lean ====
section
/-!
SUPPORT. One lemma per shared operation of the machine, saying once everything it can do: the range check, the
fetch, the loads into registers, the step.
-/

namespace Sys2Proof.Machine

@[simp] theorem State.base_eq (s : State) : s.base = s.i.toNat := rfl
@[simp] theorem State.keyNumber_eq (s : State) (x : Reg) : s.keyNumber x = (s.reg x).toNat := rfl
@[simp] theorem State.originX_eq (s : State) (x : Reg) : s.originX x = (s.reg x).toNat % 64 := rfl
@[simp] theorem State.originY_eq (s : State) (y : Reg) : s.originY y = (s.reg y).toNat % 32 := rfl
@[simp] theorem regCount_eq (x : Reg) : regCount x = x.val + 1 := rfl

/-- The range check passes exactly when every cell of the range lies in memory. -/
theorem rangeFault_eq_none (kind : AccessKind) (first count : Nat) :
    rangeFault kind first count = none ↔ count = 0 ∨ first + count ≤ 4096 := by
  unfold rangeFault Config.memSize
  split <;> simp <;> omega

/-- The fault of a range that leaves memory: the lowest address out of range. -/
theorem rangeFault_eq_some {kind : AccessKind} {first count : Nat} {f : Fault}
    (h : rangeFault kind first count = some f) :
    0 < count ∧ 4096 < first + count ∧ f = .accessDefect kind (max first 4096) := by
  unfold rangeFault Config.memSize at h
  split at h
  · rename_i hc; exact ⟨hc.1, hc.2, by simpa using h.symm⟩
  · cases h

/-- The range check fails as soon as one cell of the range lies outside. -/
theorem rangeFault_outside (kind : AccessKind) {first count : Nat} (h0 : 0 < count)
    (h : 4096 < first + count) :
    rangeFault kind first count = some (.accessDefect kind (max first 4096)) := by
  cases hr : rangeFault kind first count with
  | none => rcases (rangeFault_eq_none kind first count).1 hr with h1 | h1 <;> omega
  | some f => rw [(rangeFault_eq_some hr).2.2]

/-- A key number that names a key raises nothing. -/
theorem keyFault_inside {k : Nat} (h : k < 16) : keyFault k = none := by
  simp [keyFault, Config.numKeys, h]

/-- A key number above 15 is the address of its fault. -/
theorem keyFault_outside {k : Nat} (h : ¬ k < 16) : keyFault k = some (.accessDefect .key k) := by
  simp [keyFault, Config.numKeys, h]

/-- The fetch inside memory. -/
theorem fetch_inside {s : State} (h : s.pc.toNat + 1 < 4096) :
    fetch s = .ok (wordOf (s.readByte s.pc.toNat) (s.readByte (s.pc.toNat + 1))) := by
  have : rangeFault .fetch s.pc.toNat Config.instrBytes = none :=
    (rangeFault_eq_none _ _ _).2 (.inr (by simp only [Config.instrBytes]; omega))
  simp [fetch, this]

/-- The fetch that leaves memory. -/
theorem fetch_outside {s : State} (h : ¬ s.pc.toNat + 1 < 4096) :
    fetch s = .error (.accessDefect .fetch (max s.pc.toNat 4096)) := by
  have : rangeFault .fetch s.pc.toNat Config.instrBytes =
      some (.accessDefect .fetch (max s.pc.toNat 4096)) := by
    unfold rangeFault Config.memSize Config.instrBytes
    rw [if_pos (by omega)]
  simp [fetch, this]

/-- A fetch that answers a word was inside memory. -/
theorem fetch_ok_bound {s : State} {op : Word} (h : fetch s = .ok op) : s.pc.toNat + 1 < 4096 := by
  by_contra hc
  rw [fetch_outside hc] at h
  cases h

/-- INVERSION of the step: a latched engine stays, a fetch or decode fault is latched, or the decoded
instruction runs past the advanced `pc`. -/
theorem step_cases {s : State} {r : Result} (h : step s = r) :
    (∃ f, s.fault = some f ∧ r = .next s) ∨
    (∃ f, s.fault = none ∧ fetch s = .error f ∧ r = raise f s) ∨
    (∃ op f, s.fault = none ∧ fetch s = .ok op ∧ decodeWord op = .error f ∧
      r = raise (illegalFault f) s.advance) ∨
    (∃ op i, s.fault = none ∧ fetch s = .ok op ∧ decodeWord op = .ok i ∧
      r = exec i s.advance) := by
  subst h
  unfold step
  cases hf : s.fault with
  | some f => exact .inl ⟨f, rfl, rfl⟩
  | none =>
    refine .inr ?_
    cases ho : fetch s with
    | error f => exact .inl ⟨f, rfl, rfl, rfl⟩
    | ok op =>
      refine .inr ?_
      cases hd : decodeWord op with
      | error f => exact .inl ⟨op, f, rfl, rfl, hd, by simp only [hd]⟩
      | ok i => exact .inr ⟨op, i, rfl, rfl, hd, by simp only [hd]⟩

/-- A register after a load of consecutive registers. -/
theorem loadRegs_getElem (bs : List Byte) (v : Vector Byte 16) (first k : Nat) (hk : k < 16) :
    (loadRegs v first bs)[k] =
      if first ≤ k ∧ k < first + bs.length then bs.getD (k - first) 0 else v[k] := by
  induction bs generalizing v first with
  | nil =>
    simp only [loadRegs, List.length_nil, Nat.add_zero]
    rw [if_neg (by omega)]
  | cons b bs ih =>
    simp only [loadRegs, ih, Vector.getElem_setIfInBounds, List.length_cons]
    by_cases h : k = first
    · subst h; simp
    · by_cases h2 : first + 1 ≤ k ∧ k < first + 1 + bs.length
      · rw [if_pos h2, if_pos (by omega)]
        have : k - first = (k - (first + 1)) + 1 := by omega
        simp [this]
      · rw [if_neg h2, if_neg (Ne.symm h), if_neg (by omega)]

@[simp] theorem readBytes_length (s : State) (a n : Nat) : (s.readBytes a n).length = n := by
  simp [State.readBytes]

theorem readBytes_getD (s : State) {a n k : Nat} (h : k < n) :
    (s.readBytes a n).getD k 0 = s.readByte (a + k) := by
  simp [State.readBytes, h]

@[simp] theorem regsUpTo_length (s : State) (x : Reg) : (s.regsUpTo x).length = x.val + 1 := by
  simp [State.regsUpTo, regCount]

theorem regsUpTo_getD (s : State) {x r : Reg} (h : r.val ≤ x.val) :
    (s.regsUpTo x).getD r.val 0 = s.reg r := by
  have : r.val < x.val + 1 := Nat.lt_succ_of_le h
  simp [State.regsUpTo, State.reg, this]

@[simp] theorem decimalDigits_length (b : Byte) : (decimalDigits b).length = 3 := rfl

/-- The least pressed key, when there is one. -/
theorem leastKey_eq_some {s : State} {k : Nat} (h : s.leastKey = some k) :
    k < 16 ∧ s.keyDown k = true ∧ ∀ j, j < k → s.keyDown j = false := by
  have h1 := List.find?_range_eq_some.1 h
  exact ⟨List.mem_range.1 h1.2.1, h1.1, fun j hj => by simpa using h1.2.2 j hj⟩

/-- No key is pressed. -/
theorem leastKey_eq_none {s : State} (h : s.leastKey = none) (k : Nat) : s.keyDown k = false := by
  by_cases hk : k < 16
  · have := List.find?_range_eq_none.1 h k hk
    simpa using this
  · simp [State.keyDown, hk]

/-- A store at `I`: it faults with nothing written, or writes all its bytes and completes. -/
theorem storeAtIndex_cases (bs : List Byte) (s : State) :
    (rangeFault .store s.base bs.length = none ∧
      storeAtIndex bs s = .next (s.writeBytes s.base bs)) ∨
    (∃ f, rangeFault .store s.base bs.length = some f ∧ storeAtIndex bs s = raise f s) := by
  unfold storeAtIndex
  cases h : rangeFault .store s.base bs.length with
  | none => exact .inl ⟨rfl, rfl⟩
  | some f => exact .inr ⟨f, rfl, rfl⟩

end Sys2Proof.Machine
end

