-- ==== Sys2Proof/Laws/Frames.lean ====
section
/-!
SUPPORT. The frame of each update: which pieces of the state it may change. A frame claim about an instruction
cites the one of its update.
-/

namespace Sys2Proof.Machine

/-- A wider permission is met by a narrower change. -/
theorem changesOnly_mono {may may' : Part → Prop} {s t : State} (h : changesOnly may s t)
    (hle : ∀ p, may p → may' p) : changesOnly may' s t :=
  fun p hp => h p (fun hm => hp (hle p hm))

/-- One change after another. -/
theorem changesOnly_trans {may : Part → Prop} {s t u : State} (h : changesOnly may s t)
    (h' : changesOnly may t u) : changesOnly may s u := by
  intro p hp
  have h1 := h p hp
  have h2 := h' p hp
  cases p <;> simp only [Part.same] at * <;> simp_all

theorem changesOnly_refl (may : Part → Prop) (s : State) : changesOnly may s s := by
  intro p _; cases p <;> simp [Part.same]

theorem frame_setPc (s : State) (a : Word) : changesOnly (fun p => p = .pc) s (s.setPc a) := by
  intro p hp
  cases p <;> first | exact absurd rfl hp | exact ⟨rfl, rfl⟩ | rfl

theorem frame_skipIf (s : State) (c : Bool) : changesOnly (fun p => p = .pc) s (s.skipIf c) := by
  rw [State.skipIf_eq]; exact frame_setPc s _

theorem frame_setIndex (s : State) (a : Word) :
    changesOnly (fun p => p = .index) s (s.setIndex a) := by
  intro p hp
  cases p <;> first | exact absurd rfl hp | exact ⟨rfl, rfl⟩ | rfl

theorem frame_setReg (s : State) (x : Reg) (b : Byte) :
    changesOnly (fun p => p = .reg x) s (s.setReg x b) := by
  intro p hp
  cases p with
  | reg r =>
    have : r ≠ x := fun h => hp (by rw [h])
    simp [Part.same, this]
  | draws => exact ⟨rfl, rfl⟩
  | _ => rfl

theorem frame_writeWithFlag (s : State) (x : Reg) (b : Byte) (f : Bool) :
    changesOnly (fun p => p = .reg x ∨ p = .reg 15) s (s.writeWithFlag x b f) :=
  changesOnly_trans (changesOnly_mono (frame_setReg s x b) (fun _ => .inl))
    (changesOnly_mono (frame_setReg _ 15 _) (fun _ => .inr))

theorem frame_writeBytes (s : State) (a : Nat) (bs : List Byte) :
    changesOnly (fun p => ∃ k, k < bs.length ∧ p = .byte (a + k)) s (s.writeBytes a bs) := by
  intro p hp
  cases p with
  | byte j =>
    simp only [Part.same, State.readByte_writeBytes]
    refine if_neg (fun h => hp ⟨j - a, by omega, ?_⟩)
    congr 1; omega
  | draws => exact ⟨rfl, rfl⟩
  | _ => rfl

theorem frame_setKey (s : State) (n : Nat) (b : Bool) :
    changesOnly (fun p => p = .key n) s (s.setKey n b) := by
  intro p hp
  cases p with
  | key k =>
    have : ¬ k = n := fun h => hp (by rw [h])
    simp [Part.same, State.keyDown_setKey, this]
  | draws => simp [Part.same]
  | reg r => exact State.reg_congr (by simp) r
  | byte a => exact State.readByte_congr (by simp) a
  | _ => simp [Part.same]

end Sys2Proof.Machine
end

