-- ==== Sys2Proof/Laws/PerInstr.lean ====
section
/-!
SUPPORT. The family TableRow, one lemma a constructor: the word of a well-formed instruction selects its own
row of the opcode table (spec/30_encoding.md R65), mask and pattern.
-/

namespace Sys2Proof.Laws.TableRow

/-- The row of the table a mnemonic names. -/
def rowOf (name : String) : Option Row := opcodeTable.find? (fun r => r.mnemonic == name)

/-- The word of `i` agrees with its row on every bit of the row's mask. -/
def Statement (i : Instr) : Prop :=
  i.wf = true → ∃ r, rowOf (mnemonicOf i) = some r ∧ r.selects (encode i) = true

theorem and_F (n : Nibble) : n &&& 0xF#4 = n := BitVec.and_allOnes

theorem and_FF (b : Byte) : b &&& 0xFF#8 = b := BitVec.and_allOnes

/-- Mask F000 keeps the major opcode of format ADDR. -/
theorem mask_addr (n3 : Nibble) (nnn : Addr12) :
    encodeAddr n3 nnn &&& 0xF000#16 = n3 ++ 0x000#12 :=
  (BitVec.and_append (x₂ := 0xF#4) (y₂ := 0x000#12)).trans (by simp [and_F])

/-- Mask F0FF keeps the major and the minor opcode of format REG. -/
theorem mask_reg (n3 : Nibble) (x : Reg) (nn : Byte) :
    encodeRegByte n3 x nn &&& 0xF0FF#16 = n3 ++ 0x0#4 ++ nn :=
  (BitVec.and_append (x₂ := 0xF#4 ++ 0x0#4) (y₂ := 0xFF#8)).trans
    (by rw [BitVec.and_append, and_F, and_FF, BitVec.and_zero])

/-- Mask F000 keeps the major opcode of format REGIMM. -/
theorem mask_regImm (n3 : Nibble) (x : Reg) (nn : Byte) :
    encodeRegByte n3 x nn &&& 0xF000#16 = n3 ++ 0x0#4 ++ 0x00#8 :=
  (BitVec.and_append (x₂ := 0xF#4 ++ 0x0#4) (y₂ := 0x00#8)).trans
    (by rw [BitVec.and_append, and_F, BitVec.and_zero, BitVec.and_zero])

/-- Mask F00F keeps the major and the minor opcode of format REGREG. -/
theorem mask_regReg (n3 : Nibble) (x y : Reg) (n : Nibble) :
    encodeRegReg n3 x y n &&& 0xF00F#16 = n3 ++ 0x0#4 ++ 0x0#4 ++ n :=
  (BitVec.and_append (x₂ := 0xF#4 ++ 0x0#4 ++ 0x0#4) (y₂ := 0xF#4)).trans
    (by rw [BitVec.and_append, BitVec.and_append, and_F, and_F, BitVec.and_zero, BitVec.and_zero])

/-- Mask F000 keeps the major opcode of format REGREGN. -/
theorem mask_regRegN (n3 : Nibble) (x y : Reg) (n : Nibble) :
    encodeRegReg n3 x y n &&& 0xF000#16 = n3 ++ 0x0#4 ++ 0x0#4 ++ 0x0#4 :=
  (BitVec.and_append (x₂ := 0xF#4 ++ 0x0#4 ++ 0x0#4) (y₂ := 0x0#4)).trans
    (by rw [BitVec.and_append, BitVec.and_append, and_F, BitVec.and_zero, BitVec.and_zero, BitVec.and_zero])

theorem sys (nnn : Addr12) : Statement (.sys nnn) := fun _ =>
  ⟨⟨"SYS", 0xF000, 0x0000⟩, by rfl, beq_iff_eq.2 (mask_addr 0x0 nnn)⟩

theorem cls : Statement .cls := fun _ =>
  ⟨⟨"CLS", 0xFFFF, 0x00E0⟩, by rfl, rfl⟩

theorem ret : Statement .ret := fun _ =>
  ⟨⟨"RET", 0xFFFF, 0x00EE⟩, by rfl, rfl⟩

theorem jp (nnn : Addr12) : Statement (.jp nnn) := fun _ =>
  ⟨⟨"JP", 0xF000, 0x1000⟩, by rfl, beq_iff_eq.2 (mask_addr 0x1 nnn)⟩

theorem call (nnn : Addr12) : Statement (.call nnn) := fun _ =>
  ⟨⟨"CALL", 0xF000, 0x2000⟩, by rfl, beq_iff_eq.2 (mask_addr 0x2 nnn)⟩

theorem seVxNn (x : Reg) (nn : Byte) : Statement (.seVxNn x nn) := fun _ =>
  ⟨⟨"SE_VX_NN", 0xF000, 0x3000⟩, by rfl, beq_iff_eq.2 (mask_regImm 0x3 x nn)⟩

theorem sneVxNn (x : Reg) (nn : Byte) : Statement (.sneVxNn x nn) := fun _ =>
  ⟨⟨"SNE_VX_NN", 0xF000, 0x4000⟩, by rfl, beq_iff_eq.2 (mask_regImm 0x4 x nn)⟩

theorem seVxVy (x y : Reg) : Statement (.seVxVy x y) := fun _ =>
  ⟨⟨"SE_VX_VY", 0xF00F, 0x5000⟩, by rfl, beq_iff_eq.2 (mask_regReg 0x5 x y 0x0)⟩

theorem ldVxNn (x : Reg) (nn : Byte) : Statement (.ldVxNn x nn) := fun _ =>
  ⟨⟨"LD_VX_NN", 0xF000, 0x6000⟩, by rfl, beq_iff_eq.2 (mask_regImm 0x6 x nn)⟩

theorem addVxNn (x : Reg) (nn : Byte) : Statement (.addVxNn x nn) := fun _ =>
  ⟨⟨"ADD_VX_NN", 0xF000, 0x7000⟩, by rfl, beq_iff_eq.2 (mask_regImm 0x7 x nn)⟩

theorem ldVxVy (x y : Reg) : Statement (.ldVxVy x y) := fun _ =>
  ⟨⟨"LD_VX_VY", 0xF00F, 0x8000⟩, by rfl, beq_iff_eq.2 (mask_regReg 0x8 x y 0x0)⟩

theorem orVxVy (x y : Reg) : Statement (.orVxVy x y) := fun _ =>
  ⟨⟨"OR_VX_VY", 0xF00F, 0x8001⟩, by rfl, beq_iff_eq.2 (mask_regReg 0x8 x y 0x1)⟩

theorem andVxVy (x y : Reg) : Statement (.andVxVy x y) := fun _ =>
  ⟨⟨"AND_VX_VY", 0xF00F, 0x8002⟩, by rfl, beq_iff_eq.2 (mask_regReg 0x8 x y 0x2)⟩

theorem xorVxVy (x y : Reg) : Statement (.xorVxVy x y) := fun _ =>
  ⟨⟨"XOR_VX_VY", 0xF00F, 0x8003⟩, by rfl, beq_iff_eq.2 (mask_regReg 0x8 x y 0x3)⟩

theorem addVxVy (x y : Reg) : Statement (.addVxVy x y) := fun _ =>
  ⟨⟨"ADD_VX_VY", 0xF00F, 0x8004⟩, by rfl, beq_iff_eq.2 (mask_regReg 0x8 x y 0x4)⟩

theorem subVxVy (x y : Reg) : Statement (.subVxVy x y) := fun _ =>
  ⟨⟨"SUB_VX_VY", 0xF00F, 0x8005⟩, by rfl, beq_iff_eq.2 (mask_regReg 0x8 x y 0x5)⟩

theorem shrVx (x y : Reg) : Statement (.shrVx x y) := fun _ =>
  ⟨⟨"SHR_VX", 0xF00F, 0x8006⟩, by rfl, beq_iff_eq.2 (mask_regReg 0x8 x y 0x6)⟩

theorem subnVxVy (x y : Reg) : Statement (.subnVxVy x y) := fun _ =>
  ⟨⟨"SUBN_VX_VY", 0xF00F, 0x8007⟩, by rfl, beq_iff_eq.2 (mask_regReg 0x8 x y 0x7)⟩

theorem shlVx (x y : Reg) : Statement (.shlVx x y) := fun _ =>
  ⟨⟨"SHL_VX", 0xF00F, 0x800E⟩, by rfl, beq_iff_eq.2 (mask_regReg 0x8 x y 0xE)⟩

theorem sneVxVy (x y : Reg) : Statement (.sneVxVy x y) := fun _ =>
  ⟨⟨"SNE_VX_VY", 0xF00F, 0x9000⟩, by rfl, beq_iff_eq.2 (mask_regReg 0x9 x y 0x0)⟩

theorem ldINnn (nnn : Addr12) : Statement (.ldINnn nnn) := fun _ =>
  ⟨⟨"LD_I_NNN", 0xF000, 0xA000⟩, by rfl, beq_iff_eq.2 (mask_addr 0xA nnn)⟩

theorem jpV0Nnn (nnn : Addr12) : Statement (.jpV0Nnn nnn) := fun _ =>
  ⟨⟨"JP_V0_NNN", 0xF000, 0xB000⟩, by rfl, beq_iff_eq.2 (mask_addr 0xB nnn)⟩

theorem rndVxNn (x : Reg) (nn : Byte) : Statement (.rndVxNn x nn) := fun _ =>
  ⟨⟨"RND_VX_NN", 0xF000, 0xC000⟩, by rfl, beq_iff_eq.2 (mask_regImm 0xC x nn)⟩

theorem drwVxVyN (x y : Reg) (n : Nibble) : Statement (.drwVxVyN x y n) := fun _ =>
  ⟨⟨"DRW_VX_VY_N", 0xF000, 0xD000⟩, by rfl, beq_iff_eq.2 (mask_regRegN 0xD x y n)⟩

theorem skpVx (x : Reg) : Statement (.skpVx x) := fun _ =>
  ⟨⟨"SKP_VX", 0xF0FF, 0xE09E⟩, by rfl, beq_iff_eq.2 (mask_reg 0xE x 0x9E)⟩

theorem sknpVx (x : Reg) : Statement (.sknpVx x) := fun _ =>
  ⟨⟨"SKNP_VX", 0xF0FF, 0xE0A1⟩, by rfl, beq_iff_eq.2 (mask_reg 0xE x 0xA1)⟩

theorem ldVxDt (x : Reg) : Statement (.ldVxDt x) := fun _ =>
  ⟨⟨"LD_VX_DT", 0xF0FF, 0xF007⟩, by rfl, beq_iff_eq.2 (mask_reg 0xF x 0x07)⟩

theorem ldVxK (x : Reg) : Statement (.ldVxK x) := fun _ =>
  ⟨⟨"LD_VX_K", 0xF0FF, 0xF00A⟩, by rfl, beq_iff_eq.2 (mask_reg 0xF x 0x0A)⟩

theorem ldDtVx (x : Reg) : Statement (.ldDtVx x) := fun _ =>
  ⟨⟨"LD_DT_VX", 0xF0FF, 0xF015⟩, by rfl, beq_iff_eq.2 (mask_reg 0xF x 0x15)⟩

theorem ldStVx (x : Reg) : Statement (.ldStVx x) := fun _ =>
  ⟨⟨"LD_ST_VX", 0xF0FF, 0xF018⟩, by rfl, beq_iff_eq.2 (mask_reg 0xF x 0x18)⟩

theorem addIVx (x : Reg) : Statement (.addIVx x) := fun _ =>
  ⟨⟨"ADD_I_VX", 0xF0FF, 0xF01E⟩, by rfl, beq_iff_eq.2 (mask_reg 0xF x 0x1E)⟩

theorem ldFVx (x : Reg) : Statement (.ldFVx x) := fun _ =>
  ⟨⟨"LD_F_VX", 0xF0FF, 0xF029⟩, by rfl, beq_iff_eq.2 (mask_reg 0xF x 0x29)⟩

theorem ldBVx (x : Reg) : Statement (.ldBVx x) := fun _ =>
  ⟨⟨"LD_B_VX", 0xF0FF, 0xF033⟩, by rfl, beq_iff_eq.2 (mask_reg 0xF x 0x33)⟩

theorem ldMemIVx (x : Reg) : Statement (.ldMemIVx x) := fun _ =>
  ⟨⟨"LD_MEM_I_VX", 0xF0FF, 0xF055⟩, by rfl, beq_iff_eq.2 (mask_reg 0xF x 0x55)⟩

theorem ldVxMemI (x : Reg) : Statement (.ldVxMemI x) := fun _ =>
  ⟨⟨"LD_VX_MEM_I", 0xF0FF, 0xF065⟩, by rfl, beq_iff_eq.2 (mask_reg 0xF x 0x65)⟩

end Sys2Proof.Laws.TableRow
end

