-- ==== Sys2Proof/Laws/Runs.lean ====
section
/-!
SUPPORT. How runs are put together, and what the end-of-run predicate says of the next instruction. A claim about runs
goes by induction over the transactions with these.
-/

namespace Sys2Proof.Machine

@[simp] theorem runTransactions_nil (s : State) : runTransactions [] s = .next s := rfl

/-- A run of one transaction more at its head. -/
theorem runTransactions_cons {tr : Transaction} {s s' : State} (ts : List Transaction)
    (h : transact tr s = .next s') : runTransactions (tr :: ts) s = runTransactions ts s' := by
  simp only [runTransactions, h]

/-- One run after another is a run. -/
theorem runTransactions_append {s t : State} {ts : List Transaction} (us : List Transaction)
    (h : runTransactions ts s = .next t) : runTransactions (ts ++ us) s = runTransactions us t := by
  induction ts generalizing s with
  | nil => cases h; rfl
  | cons tr ts ih =>
    simp only [runTransactions, List.cons_append] at h ⊢
    split at h
    · exact ih h
    · cases h
    · cases h

/-- A schedule stopped one transaction later. -/
theorem firstTransactions_succ (schedule : Schedule) (n : Nat) :
    firstTransactions schedule (n + 1) = firstTransactions schedule n ++ [schedule n] := by
  simp [firstTransactions, List.range_succ]

/-- At a jump to its own address the fetch answers a word that decodes to a jump to exactly `pc`. -/
theorem atSelfJump_decoded {s : State} (h : s.atSelfJump) : ∃ op nnn,
    fetch s = .ok op ∧ decodeWord op = .ok (.jp nnn) ∧ addrOf nnn = s.pc := by
  refine ⟨_, s.pc.setWidth 12, h, ?_, ?_⟩
  · obtain ⟨_, _, _, _, e⟩ := decode?_encodeAddr 0x1 (s.pc.setWidth 12)
    exact decodeWord_eq_ok.2 e
  · have := fetch_ok_bound h
    simp only [addrOf]
    bv_omega

end Sys2Proof.Machine
end

