-- ==== Sys2Proof/Tests/Slice0.lean ====
section
/-!
SUPPORT. The model's own tests. Expected values come from spec/95_test_vectors.md (S1 to S9, T1 to T158, P5)
or from a rule worked by hand; each names its source. Then one witness for each statement that has
hypotheses, at the boundary values of its clauses.
-/

open Sys2Proof Sys2Proof.Machine

namespace Sys2Proof.Tests

/-- Does a result end in a next state that passes a check? -/
def ends (r : Result) (good : State → Bool) : Bool :=
  match r with
  | .next t => good t
  | .fault _ => false
  | .refused _ => false

/-- The reset state with some registers set. -/
def withRegs (rs : List (Reg × Byte)) : State :=
  rs.foldl (fun s r => s.setReg r.1 r.2) State.reset

/-- One step at 0x200 from a state, over a word. -/
def runs (s : State) (op : Nat) (good : State → Bool) : Bool := ends (step (s.withFetchWord 16 op)) good

/-- Are these cells `(x, y)` set and those clear? -/
def shows (fb : Framebuffer) (set clear : List (Nat × Nat)) : Bool :=
  set.all (fun c => pixel fb c.2 c.1) && clear.all (fun c => !pixel fb c.2 c.1)

/-- A state at 0x200 with a sprite at 0x300, `I` at the sprite. -/
def withSprite (rs : List (Reg × Byte)) (bytes : List Byte) (s : State) : State :=
  ((rs.foldl (fun s r => s.setReg r.1 r.2) s).writeBytes 0x300 bytes).setIndex 0x300

/-- The reset state with some cells `(x, y)` set and `dirty` clear. -/
def withCells (cells : List (Nat × Nat)) : State :=
  { State.reset with fb := cells.foldl (fun fb c => flipPixel fb c.2 c.1) clearFb, dirty := false }

/-! ### Well-formedness: one ill-formed term for each check -/

/-- The two words of 30_encoding.md R64 that are not SYS. -/
theorem test_wf_refuses_sys_of_cls : (Instr.sys 0x0E0#12).wf = false := by decide

theorem test_wf_refuses_sys_of_ret : (Instr.sys 0x0EE#12).wf = false := by decide

theorem test_wf_accepts_sys : (Instr.sys 0x0E1#12).wf = true ∧ (Instr.sys 0x000#12).wf = true := by
  decide

theorem test_memory_form_refused :
    Memory.wf [(5, 1), (4, 1)] = false ∧ Memory.wf [(5, 1), (5, 2)] = false ∧
    Memory.wf [(0x300, 0)] = false ∧ Memory.wf [(0x050, 0xF0)] = false ∧
    Memory.wf [(4096, 1)] = false ∧ Memory.wf [(4, 1), (5, 1)] = true := by decide

/-- The constraints of 00_scope.md R4 on the parameters. -/
theorem test_parameters_meet_their_constraints :
    fontBase + fontTable.length ≤ Config.memSize ∧ programStart < Config.memSize ∧
    1 ≤ Config.displayW ∧ 1 ≤ Config.displayH ∧ programCapacity = 3584 ∧
    fontTable.length = Config.fontGlyphs * Config.glyphBytes := by decide

/-! ### Decoding: a word written out from the table of 30_encoding.md R65 for every constructor -/

theorem test_decode_flow :
    decodeWord 0b0000_0001_0010_0011#16 = .ok (.sys 0x123#12) ∧
    decodeWord 0b0000_0000_1110_0000#16 = .ok .cls ∧
    decodeWord 0b0000_0000_1110_1110#16 = .ok .ret ∧
    decodeWord 0b0001_1010_1011_1100#16 = .ok (.jp 0xABC#12) ∧
    decodeWord 0b0010_1010_1011_1100#16 = .ok (.call 0xABC#12) ∧
    decodeWord 0b1011_0011_0000_0001#16 = .ok (.jpV0Nnn 0x301#12) := by decide

theorem test_decode_skips :
    decodeWord 0b0011_0011_0010_1010#16 = .ok (.seVxNn 3 0x2A#8) ∧
    decodeWord 0b0100_0011_0010_1010#16 = .ok (.sneVxNn 3 0x2A#8) ∧
    decodeWord 0b0101_0001_0010_0000#16 = .ok (.seVxVy 1 2) ∧
    decodeWord 0b1001_0001_0010_0000#16 = .ok (.sneVxVy 1 2) ∧
    decodeWord 0b1110_0001_1001_1110#16 = .ok (.skpVx 1) ∧
    decodeWord 0b1110_0001_1010_0001#16 = .ok (.sknpVx 1) := by decide

theorem test_decode_alu :
    decodeWord 0b0110_1010_0010_1111#16 = .ok (.ldVxNn 10 0x2F#8) ∧
    decodeWord 0b0111_0000_1111_1111#16 = .ok (.addVxNn 0 0xFF#8) ∧
    decodeWord 0b1000_0010_0111_0000#16 = .ok (.ldVxVy 2 7) ∧
    decodeWord 0b1000_0010_0111_0001#16 = .ok (.orVxVy 2 7) ∧
    decodeWord 0b1000_0010_0111_0010#16 = .ok (.andVxVy 2 7) ∧
    decodeWord 0b1000_0010_0111_0011#16 = .ok (.xorVxVy 2 7) ∧
    decodeWord 0b1000_0010_0111_0100#16 = .ok (.addVxVy 2 7) ∧
    decodeWord 0b1000_0010_0111_0101#16 = .ok (.subVxVy 2 7) ∧
    decodeWord 0b1000_0010_0111_0110#16 = .ok (.shrVx 2 7) ∧
    decodeWord 0b1000_0010_0111_0111#16 = .ok (.subnVxVy 2 7) ∧
    decodeWord 0b1000_0010_0111_1110#16 = .ok (.shlVx 2 7) := by decide

theorem test_decode_rest :
    decodeWord 0b1010_0010_1111_0000#16 = .ok (.ldINnn 0x2F0#12) ∧
    decodeWord 0b1100_0011_0000_1111#16 = .ok (.rndVxNn 3 0x0F#8) ∧
    decodeWord 0b1101_0011_0100_0101#16 = .ok (.drwVxVyN 3 4 5#4) ∧
    decodeWord 0b1111_0101_0000_0111#16 = .ok (.ldVxDt 5) ∧
    decodeWord 0b1111_0011_0000_1010#16 = .ok (.ldVxK 3) ∧
    decodeWord 0b1111_0101_0001_0101#16 = .ok (.ldDtVx 5) ∧
    decodeWord 0b1111_0101_0001_1000#16 = .ok (.ldStVx 5) ∧
    decodeWord 0b1111_0100_0001_1110#16 = .ok (.addIVx 4) ∧
    decodeWord 0b1111_0100_0010_1001#16 = .ok (.ldFVx 4) ∧
    decodeWord 0b1111_0010_0011_0011#16 = .ok (.ldBVx 2) ∧
    decodeWord 0b1111_0010_0101_0101#16 = .ok (.ldMemIVx 2) ∧
    decodeWord 0b1111_0010_0110_0101#16 = .ok (.ldVxMemI 2) := by decide

/-- T5 to T11: one illegal word of each group of R66. -/
theorem test_decode_illegal :
    decodeWord 0x5121#16 = .error ⟨5, 1, 2, 1⟩ ∧ decodeWord 0x9AB4#16 = .error ⟨9, 10, 11, 4⟩ ∧
    decodeWord 0x8128#16 = .error ⟨8, 1, 2, 8⟩ ∧ decodeWord 0x812F#16 = .error ⟨8, 1, 2, 15⟩ ∧
    decodeWord 0xE19F#16 = .error ⟨14, 1, 9, 15⟩ ∧ decodeWord 0xF100#16 = .error ⟨15, 1, 0, 0⟩ ∧
    decodeWord 0xF175#16 = .error ⟨15, 1, 7, 5⟩ := by decide

/-- T3, T4: the other words with `n3 = 0` are SYS. -/
theorem test_decode_sys_around_cls :
    decodeWord 0x00E1#16 = .ok (.sys 0x0E1#12) ∧ decodeWord 0x00FF#16 = .ok (.sys 0x0FF#12) := by
  decide

/-- 20_memory.md R47: the byte at the lower address is the high one; decoding any bytes is total. -/
theorem test_decode_bytes :
    decodeBytes [0x6A, 0x2F, 0x77] = .ok (.ldVxNn 10 0x2F#8, [0x77]) ∧
    decodeBytes [0x51, 0x21] = .error (.unimplementedOpcode ⟨5, 1, 2, 1⟩) ∧
    decodeBytes [0x6A] = .error .truncated ∧ decodeBytes [] = .error .truncated := by decide

theorem test_encode_bytes : encodeBytes (.drwVxVyN 3 4 5#4) = [0xD3, 0x45] ∧
    encodeBytes (.sys 0x123#12) = [0x01, 0x23] ∧ encodeBytes (.ldVxMemI 2) = [0xF2, 0x65] := by decide

/-- The numbering of spec/opcode_table.json: bit 0 is the least significant bit of the one word. -/
theorem test_table_word :
    decodeTableWord 16 0xD345 = some (.drwVxVyN 3 4 5#4) ∧ decodeTableWord 16 0x8128 = none := by decide

/-- The word is stored at the reset vector, high byte first, and nothing else changes. -/
theorem test_fetch_word_placed :
    (State.reset.withFetchWord 16 0x6A2F).mem = [(0x200, 0x6A), (0x201, 0x2F)] ∧
    (State.reset.withFetchWord 16 0x6A2F).pc = 0x200#16 ∧
    fetch (State.reset.withFetchWord 16 0x6A2F) = .ok 0x6A2F#16 := by decide

/-! ### One step: control flow -/

/-- T2: SYS does nothing. -/
theorem test_sys : runs State.reset 0x0123 (fun t => t.pc == 0x202#16 && t.fault == none &&
    t.stack == [] && t.i == 0#16) = true := by decide

/-- T3: 0x00E1 is not CLS. -/
theorem test_sys_not_cls : runs (withCells [(4, 3)]) 0x00E1
    (fun t => shows t.fb [(4, 3)] [(3, 3)] && t.dirty == false) = true := by decide

/-- T70. -/
theorem test_cls : runs ((withCells [(4, 3)]).setReg 15 1) 0x00E0
    (fun t => shows t.fb [] [(4, 3), (0, 0), (63, 31)] && t.dirty && t.reg 15 == 1#8 && t.pc == 0x202#16) = true := by
  decide

/-- S8, P5: a return as the first instruction. -/
theorem test_ret_underflow : runs State.reset 0x00EE
    (fun t => t.fault == some .stackUnderflow && t.pc == 0x202#16 && t.stack == []) = true := by decide

/-- T24: the spec lists the top last, the model first. -/
theorem test_ret : runs { State.reset with stack := [0x789, 0x456] } 0x00EE
    (fun t => t.pc == 0x789#16 && t.stack == [0x456#16] && t.fault == none) = true := by decide

/-- S3. -/
theorem test_jp : runs State.reset 0x1ABC (fun t => t.pc == 0xABC#16) = true := by decide

/-- T22. -/
theorem test_call : runs State.reset 0x2ABC
    (fun t => t.stack == [0x202#16] && t.pc == 0xABC#16) = true := by decide

/-- T23. -/
theorem test_call_overflow : runs { State.reset with stack := List.replicate 16 0x202 } 0x2ABC
    (fun t => t.fault == some .stackOverflow && t.pc == 0x202#16 &&
      t.stack == List.replicate 16 0x202#16) = true := by decide

/-- T25: not reduced modulo 4096. -/
theorem test_jp_v0_top : runs (withRegs [(0, 0xFF)]) 0xBFFF (fun t => t.pc == 0x10FE#16) = true := by
  decide

/-- T26: the base is `V0`, not `V3`. -/
theorem test_jp_v0 : runs (withRegs [(0, 4), (3, 0x99)]) 0xB300 (fun t => t.pc == 0x304#16) = true := by
  decide

/-- T27, T28. -/
theorem test_se_constant : runs (withRegs [(3, 0x2A)]) 0x332A (fun t => t.pc == 0x204#16) = true ∧
    runs (withRegs [(3, 0x2A)]) 0x332B (fun t => t.pc == 0x202#16) = true := by decide

/-- T29, T30. -/
theorem test_sne_constant : runs (withRegs [(3, 0x2A)]) 0x432A (fun t => t.pc == 0x202#16) = true ∧
    runs (withRegs [(3, 0x2A)]) 0x432B (fun t => t.pc == 0x204#16) = true := by decide

/-- T31, T32. -/
theorem test_se_register : runs (withRegs [(1, 7), (2, 7)]) 0x5120 (fun t => t.pc == 0x204#16) = true ∧
    runs (withRegs [(1, 7), (2, 8)]) 0x5120 (fun t => t.pc == 0x202#16) = true := by decide

/-- T34, T35. -/
theorem test_sne_register : runs (withRegs [(1, 7), (2, 8)]) 0x9120 (fun t => t.pc == 0x204#16) = true ∧
    runs (withRegs [(1, 7), (2, 7)]) 0x9120 (fun t => t.pc == 0x202#16) = true := by decide

/-! ### One step: registers and arithmetic -/

/-- T40, T41. -/
theorem test_ld_constant : runs State.reset 0x6A2F (fun t => t.reg 10 == 0x2F#8) = true ∧
    runs (withRegs [(15, 1)]) 0x6F00 (fun t => t.reg 15 == 0#8) = true := by decide

/-- T42: it wraps and writes no flag. -/
theorem test_add_constant : runs (withRegs [(0, 0xFF)]) 0x7002
    (fun t => t.reg 0 == 1#8 && t.reg 15 == 0#8) = true := by decide

/-- T44. -/
theorem test_ld_register : runs (withRegs [(1, 0x33)]) 0x8010
    (fun t => t.reg 0 == 0x33#8 && t.reg 1 == 0x33#8) = true := by decide

/-- T45. -/
theorem test_or : runs (withRegs [(0, 0xF0), (1, 0x0F), (15, 1)]) 0x8011
    (fun t => t.reg 0 == 0xFF#8 && t.reg 15 == 1#8) = true := by decide

/-- T46. -/
theorem test_and : runs (withRegs [(0, 0xF3), (1, 0x3F), (15, 1)]) 0x8012
    (fun t => t.reg 0 == 0x33#8 && t.reg 15 == 1#8) = true := by decide

/-- T47. -/
theorem test_xor : runs (withRegs [(0, 0xFF), (1, 0x0F), (15, 1)]) 0x8013
    (fun t => t.reg 0 == 0xF0#8 && t.reg 15 == 1#8) = true := by decide

/-- S5: 250 + 10, and an old flag overwritten. -/
theorem test_add : runs (withRegs [(0, 250), (1, 10)]) 0x8014
      (fun t => t.reg 0 == 4#8 && t.reg 15 == 1#8 && t.reg 1 == 10#8) = true ∧
    runs (withRegs [(0, 10), (1, 5), (15, 1)]) 0x8014
      (fun t => t.reg 0 == 15#8 && t.reg 15 == 0#8) = true := by decide

/-- T53, T54: with `X = 15` the carry is what stays; with `Y = 15` the old flag is the operand. -/
theorem test_add_flag_register : runs (withRegs [(15, 0x10), (1, 2)]) 0x8F14
      (fun t => t.reg 15 == 0#8) = true ∧
    runs (withRegs [(0, 0x10), (15, 5)]) 0x80F4
      (fun t => t.reg 0 == 0x15#8 && t.reg 15 == 0#8) = true := by decide

/-- S6. -/
theorem test_sub : runs (withRegs [(0, 5), (1, 10)]) 0x8015
      (fun t => t.reg 0 == 0xFB#8 && t.reg 15 == 0#8) = true ∧
    runs (withRegs [(0, 10), (1, 5)]) 0x8015
      (fun t => t.reg 0 == 5#8 && t.reg 15 == 1#8) = true := by decide

/-- T55 (equal: no borrow), T58 (`X = 15`). -/
theorem test_sub_equal : runs (withRegs [(0, 7), (1, 7)]) 0x8015
      (fun t => t.reg 0 == 0#8 && t.reg 15 == 1#8) = true ∧
    runs (withRegs [(15, 3), (1, 5)]) 0x8F15 (fun t => t.reg 15 == 0#8) = true := by decide

/-- S6. -/
theorem test_subn : runs (withRegs [(0, 10), (1, 5)]) 0x8017
      (fun t => t.reg 0 == 0xFB#8 && t.reg 15 == 0#8) = true ∧
    runs (withRegs [(0, 5), (1, 10)]) 0x8017
      (fun t => t.reg 0 == 5#8 && t.reg 15 == 1#8) = true := by decide

/-- T61 (`Y` ignored), T65 (`X = 15`). -/
theorem test_shr : runs (withRegs [(2, 5), (7, 0xAA)]) 0x8276
      (fun t => t.reg 2 == 2#8 && t.reg 15 == 1#8 && t.reg 7 == 0xAA#8) = true ∧
    runs (withRegs [(15, 2)]) 0x8F06 (fun t => t.reg 15 == 0#8) = true := by decide

/-- T68 (`Y` ignored), T67, T69 (`X = 15`). -/
theorem test_shl : runs (withRegs [(2, 0xFF), (7, 1)]) 0x827E
      (fun t => t.reg 2 == 0xFE#8 && t.reg 15 == 1#8 && t.reg 7 == 1#8) = true ∧
    runs (withRegs [(2, 0x40)]) 0x820E (fun t => t.reg 2 == 0x80#8 && t.reg 15 == 0#8) = true ∧
    runs (withRegs [(15, 0x80)]) 0x8F0E (fun t => t.reg 15 == 1#8) = true := by decide

/-! ### One step: display, timers, keypad -/

/-- T72 (clipped at the right edge), T74 (the origin wraps), T76 (a collision). -/
theorem test_drw :
    runs (withSprite [(0, 60)] [0xFF] (withCells [])) 0xD011 (fun t =>
      shows t.fb [(60, 0), (61, 0), (62, 0), (63, 0)] [(59, 0), (0, 0), (0, 1), (3, 0), (3, 1)] &&
        t.reg 15 == 0#8 && t.dirty) = true ∧
    runs (withSprite [(0, 70), (1, 33)] [0x80] (withCells [])) 0xD011
      (fun t => shows t.fb [(6, 1)] [(5, 1), (7, 1), (6, 0), (6, 2)]) = true ∧
    runs (withSprite [] [0xC0] (withCells [(0, 0)])) 0xD011 (fun t =>
      shows t.fb [(1, 0)] [(0, 0), (2, 0)] && t.reg 15 == 1#8) = true := by decide

/-- T80 (`X = 15`: the old `VF` is the column), T82 (a row out of memory), T84 (no row is read). -/
theorem test_drw_corners :
    runs (withSprite [(15, 5), (1, 2)] [0x80] (withCells [])) 0xDF11 (fun t =>
      shows t.fb [(5, 2)] [(0, 2), (6, 2)] && t.reg 15 == 0#8) = true ∧
    runs (((withCells []).setReg 15 1).setIndex 0xFFF) 0xD012 (fun t =>
      t.fault == some (.accessDefect .draw 0x1000) && shows t.fb [] [(0, 0), (0, 1)] && t.reg 15 == 1#8 &&
        t.dirty == false && t.pc == 0x202#16) = true ∧
    runs (((withCells []).setReg 15 1).setIndex 0x1003) 0xD010 (fun t =>
      t.fault == none && t.reg 15 == 0#8 && t.dirty) = true := by decide

/-- T90, T91, T92. -/
theorem test_timer_moves :
    runs { State.reset with dt := 0x3C } 0xF507 (fun t => t.reg 5 == 0x3C#8) = true ∧
    runs (withRegs [(5, 0x3C)]) 0xF515 (fun t => t.dt == 0x3C#8 && t.st == 0#8) = true ∧
    runs (withRegs [(5, 2)]) 0xF518 (fun t => t.st == 2#8 && t.dt == 0#8) = true := by decide

/-- T100, T101. -/
theorem test_skp :
    runs ((withRegs [(1, 10)]).pressKey 10) 0xE19E (fun t => t.pc == 0x204#16) = true ∧
    runs (withRegs [(1, 10)]) 0xE19E (fun t => t.pc == 0x202#16) = true := by decide

/-- T102, T103. -/
theorem test_sknp :
    runs (withRegs [(1, 10)]) 0xE1A1 (fun t => t.pc == 0x204#16) = true ∧
    runs ((withRegs [(1, 10)]).pressKey 10) 0xE1A1 (fun t => t.pc == 0x202#16) = true := by decide

/-- T104, T105. -/
theorem test_key_number_faults :
    runs (withRegs [(1, 16)]) 0xE19E
      (fun t => t.fault == some (.accessDefect .key 16) && t.pc == 0x202#16) = true ∧
    runs (withRegs [(1, 255)]) 0xE1A1 (fun t => t.fault == some (.accessDefect .key 255)) = true := by
  decide

/-- T106, T108, T109. -/
theorem test_key_wait :
    runs State.reset 0xF30A (fun t => t.pc == 0x200#16 && t.reg 3 == 0#8 && t.fault == none) = true ∧
    runs ((State.reset.pressKey 9).pressKey 3) 0xF30A
      (fun t => t.reg 3 == 3#8 && t.pc == 0x202#16) = true ∧
    runs ((withRegs [(3, 0x55)]).pressKey 0) 0xF30A
      (fun t => t.reg 3 == 0#8 && t.pc == 0x202#16) = true := by decide

/-! ### One step: index, memory, random -/

/-- T120. -/
theorem test_ld_index : runs State.reset 0xA2F0 (fun t => t.i == 0x2F0#16) = true := by decide

/-- T121, T122. -/
theorem test_add_index :
    runs ((withRegs [(0, 5)]).setIndex 0xFFE) 0xF01E (fun t => t.i == 0x1003#16 && t.reg 15 == 0#8) = true ∧
    runs ((withRegs [(0, 1)]).setIndex 0xFFFF) 0xF01E (fun t => t.i == 0#16) = true := by decide

/-- T123, T124, T126. -/
theorem test_ld_font :
    runs (withRegs [(4, 0x0B)]) 0xF429 (fun t => t.i == 0x087#16) = true ∧
    runs (withRegs [(4, 0x1A)]) 0xF429 (fun t => t.i == 0x082#16) = true ∧
    runs (withRegs [(4, 0xFF)]) 0xF429 (fun t => t.i == 0x09B#16) = true := by decide

/-- T127. -/
theorem test_bcd : runs ((withRegs [(2, 234)]).setIndex 0x300) 0xF233 (fun t =>
    t.readBytes 0x300 3 == [2#8, 3#8, 4#8] && t.i == 0x300#16) = true := by decide

/-- T130 (fits exactly), T131 (one byte too far: nothing is stored). -/
theorem test_bcd_edge :
    runs ((withRegs [(2, 100)]).setIndex 0xFFD) 0xF233 (fun t =>
      t.readBytes 0xFFD 3 == [1#8, 0#8, 0#8] && t.fault == none) = true ∧
    runs ((withRegs [(2, 111)]).setIndex 0xFFE) 0xF233 (fun t =>
      t.fault == some (.accessDefect .store 0x1000) && t.readBytes 0xFFE 2 == [0#8, 0#8]) = true := by
  decide

/-- T132. -/
theorem test_store : runs ((withRegs [(0, 0x11), (1, 0x22), (2, 0x33), (3, 0x44)]).setIndex 0x400) 0xF255
    (fun t => t.readBytes 0x400 4 == [0x11#8, 0x22#8, 0x33#8, 0#8] && t.i == 0x400#16) = true := by
  decide

/-- T134 (its last byte), T135. -/
theorem test_store_edge :
    runs ((withRegs [(15, 0xAF)]).setIndex 0xFF0) 0xFF55
      (fun t => t.readByte 0xFFF == 0xAF#8 && t.fault == none) = true ∧
    runs ((withRegs [(0, 1)]).setIndex 0xFF1) 0xFF55 (fun t =>
      t.fault == some (.accessDefect .store 0x1000) && t.readByte 0xFF1 == 0#8) = true := by
  decide

/-- T136. -/
theorem test_load :
    runs (((withRegs [(3, 0x99)]).writeBytes 0x400 [0x11, 0x22, 0x33]).setIndex 0x400) 0xF265
      (fun t => t.reg 0 == 0x11#8 && t.reg 1 == 0x22#8 && t.reg 2 == 0x33#8 && t.reg 3 == 0x99#8 &&
        t.i == 0x400#16) = true := by decide

/-- T137. -/
theorem test_load_edge : runs ((withRegs [(0, 7)]).setIndex 0x1000) 0xF065
    (fun t => t.fault == some (.accessDefect .load 0x1000) && t.reg 0 == 7#8) = true := by decide

/-- T140: the byte drawn is an input of the step. -/
theorem test_rnd : ends (stepDrawing 0xB7 (State.reset.withFetchWord 16 0xC30F))
    (fun t => t.reg 3 == 7#8 && t.drawInputs == [] && t.drawCount == 0) = true := by decide

/-- T141: with the mask 0x00 the result is 0x00, whatever is drawn. -/
theorem test_rnd_zero_mask (drawn : Byte) : ∃ t,
    exec (.rndVxNn 3 0x00#8) { withRegs [(3, 0x55)] with drawInputs := [drawn] } = .next t ∧
      t.reg 3 = 0x00#8 := by
  refine ⟨_, rfl, ?_⟩
  simp

/-! ### The step and the host -/

/-- T12, T13: the last word of memory, and one past it. -/
theorem test_fetch_edge :
    ends (step { State.reset with pc := 0xFFF }) (fun t =>
      t.fault == some (.accessDefect .fetch 0x1000) && t.pc == 0xFFF#16) = true ∧
    ends (step { State.reset with pc := 0xFFE }) (fun t => t.fault == none && t.pc == 0x1000#16) = true := by
  decide

/-- T14: an odd address. -/
theorem test_fetch_odd : runs { State.reset with pc := 0x201 } 0x6A2F
    (fun t => t.reg 10 == 0x2F#8 && t.pc == 0x203#16) = true := by decide

/-- T5: an illegal word, after the advance. -/
theorem test_illegal : runs State.reset 0x5121
    (fun t => t.fault == some (.unimplementedOpcode 5 1 2 1) && t.pc == 0x202#16) = true := by decide

/-- T93, T95, T97. -/
theorem test_ticks :
    ends (transact .tickTimers { State.reset with dt := 2, st := 1 })
      (fun t => t.dt == 1#8 && t.st == 0#8) = true ∧
    ends (transact .tickTimers State.reset) (fun t => t.dt == 0#8 && t.st == 0#8) = true ∧
    ends (transact .tickTimers { State.reset with dt := 5, fault := some .stackUnderflow })
      (fun t => t.dt == 4#8 && t.fault == some .stackUnderflow) = true := by decide

/-- T110, T111, T112. -/
theorem test_keys :
    ends (transact (.pressKey 15) State.reset) (fun t => t.keyDown 15 && !t.keyDown 14) = true ∧
    ends (transact (.pressKey 16) State.reset) (fun t => t.key == State.reset.key) = true ∧
    ends (transact (.unpressKey 4) (State.reset.pressKey 4)) (fun t => !t.keyDown 4) = true := by decide

/-- S2, T152: a load, and the cells past it. -/
theorem test_load_program :
    ends (transact (.load [0x11]) (State.reset.writeBytes 0x200 [0xAA, 0xBB])) (fun t =>
      t.readBytes 0x200 3 == [0x11#8, 0xBB#8, 0#8] && t.pc == 0x200#16) = true ∧
    respond (.load [0x11]) State.reset State.reset = .ok := by decide

/-- T150, T151. -/
theorem test_latch :
    ends (step { State.reset with fault := some (.unimplementedOpcode 5 1 2 1), pc := 0x202 })
      (fun t => t.fault == some (.unimplementedOpcode 5 1 2 1) && t.pc == 0x202#16) = true ∧
    ends (transact .reset { State.reset with fault := some .stackOverflow, pc := 0x202, dt := 3 })
      (fun t => t == State.reset) = true := by decide

/-- T158: the index of a cell in the snapshot. -/
theorem test_display_snapshot : (withCells [(6, 1)]).displayCells[70]? = some true ∧
    (withCells [(6, 1)]).displayCells[69]? = some false := by decide

/-- S1: the font after reset. -/
theorem test_font : State.reset.readBytes 0x04F 6 = [0x00, 0xF0, 0x90, 0x90, 0x90, 0xF0] ∧
    State.reset.readBytes 0x09B 6 = [0xF0, 0x80, 0xF0, 0x80, 0x80, 0x00] := by decide

/-- The codes of 60_exceptions.md R191. -/
theorem test_fault_codes : faultCode none = 0 ∧ faultCode (some .stackUnderflow) = 1 ∧
    faultCode (some (.unimplementedOpcode 5 1 2 1)) = 2 ∧ faultCode (some .stackOverflow) = 3 ∧
    faultCode (some (.accessDefect .draw 0x1000)) = 4 := by decide

/-- The machine handed to the host starts at reset and steps by `step`. -/
theorem test_core : Sys2Proof.core.reset = State.reset ∧ Sys2Proof.core.step State.reset = step State.reset :=
  ⟨rfl, rfl⟩

/-! ### Witnesses: states and operands that meet the hypotheses of each statement, clause by clause -/

/-- ResetLeavesEveryPieceAtItsValue: both ends of the font region and of memory. -/
theorem test_meets_reset_addresses : State.reset.readByte 0x04F = 0 ∧ State.reset.readByte 0x050 = 0xF0 ∧
    State.reset.readByte 0x09F = 0x80 ∧ State.reset.readByte 0x0A0 = 0 ∧
    State.reset.readByte 0xFFF = 0 := by decide

/-- A state after a fault, with memory written and a call made. -/
def used : State :=
  { withRegs [(0, 0x12)] with
    stack := [0x202], pc := 0x10FE, mem := [(0x200, 0x22), (0xFFF, 1)], fault := some .stackUnderflow }

/-- ResetMeetsTheInvariant, StepKeepsTheInvariant, EveryRunOfTheHostKeepsTheInvariant: a state away from reset that
meets the invariant, and its step and its reset. -/
theorem test_meets_invariant : used.inv ∧ (∃ t, transact .reset used = .next t) ∧
    (∃ t, step used = .next t) ∧
    ∃ t, runTransactions [.tickTimers, .reset, .pressKey 3] used = .next t := by
  refine ⟨⟨by decide, by decide, ?_, by decide⟩, ⟨_, rfl⟩, ⟨_, rfl⟩, ⟨_, rfl⟩⟩
  intro a h
  simp only [used, List.mem_singleton] at h
  subst h
  decide

/-- DecodeOfEncodeIsTheInstruction: well-formed instructions, the SYS operands next to the two that are none. -/
theorem test_meets_well_formed : (Instr.sys 0x0DF#12).wf = true ∧ (Instr.sys 0x0EF#12).wf = true ∧
    (Instr.drwVxVyN 15 15 15#4).wf = true := by decide

/-- EncodeOfDecodeIsTheWord: a word that decodes. -/
theorem test_meets_decoded : decodeWord 0xFFFF#16 = .error ⟨15, 15, 15, 15⟩ ∧
    decodeWord 0xDFFF#16 = .ok (.drwVxVyN 15 15 15#4) ∧ encode (.drwVxVyN 15 15 15#4) = 0xDFFF#16 := by
  decide

/-- StepRunsTheDecodedInstruction, FetchReadsTheBigEndianWord: a latched state, the last `pc` that can be fetched
from, the first that cannot, a word that decodes and one that does not. -/
theorem test_meets_step_clauses :
    used.fault = some .stackUnderflow ∧
    (0xFFE#16).toNat ≤ 0xFFE ∧ 0xFFE < (0xFFF#16).toNat ∧
    (State.reset.fault = none ∧ State.reset.pc.toNat ≤ 0xFFE ∧
      decodeWord (wordOf (State.reset.readByte 0x200) (State.reset.readByte 0x201)) =
        .ok (.sys 0x000#12)) ∧
    decodeWord (wordOf ((State.reset.writeBytes 0x200 [0x51, 0x21]).readByte 0x200)
      ((State.reset.writeBytes 0x200 [0x51, 0x21]).readByte 0x201)) = .error ⟨5, 1, 2, 1⟩ := by decide

/-- OnlyResetClearsTheLatch: a latched state, each transaction of it, the last key. -/
theorem test_meets_latched : used.fault = some .stackUnderflow ∧
    (∃ t, transact .reset used = .next t) ∧ (∃ t, transact .tickTimers used = .next t) ∧
    ∃ t, transact (.pressKey 15) used = .next t :=
  ⟨rfl, ⟨_, rfl⟩, ⟨_, rfl⟩, ⟨_, rfl⟩⟩

/-- InstructionsFaultExactlyWhenTheRulesSay: both sides of each bound. -/
theorem test_meets_fault_bounds :
    faultOf .ret State.reset = some .stackUnderflow ∧
    faultOf (.call 0x300#12) { State.reset with stack := List.replicate 15 0x202 } = none ∧
    faultOf (.call 0x300#12) { State.reset with stack := List.replicate 16 0x202 } = some .stackOverflow ∧
    faultOf (.ldBVx 0) { State.reset with i := 0xFFD } = none ∧
    faultOf (.ldBVx 0) { State.reset with i := 0xFFE } = some (.accessDefect .store 0x1000) ∧
    faultOf (.ldVxMemI 15) { State.reset with i := 0xFF0 } = none ∧
    faultOf (.ldVxMemI 15) { State.reset with i := 0xFF1 } = some (.accessDefect .load 0x1000) := by decide

/-- FaultsArePrecise: a fetch fault and another one. -/
theorem test_meets_precise :
    (∃ t, step { State.reset with pc := 0xFFF } = .next t ∧
      t.fault = some (.accessDefect .fetch 0x1000)) ∧
    ∃ t, step (State.reset.withFetchWord 16 0x00EE) = .next t ∧ t.fault = some .stackUnderflow :=
  ⟨⟨_, rfl, rfl⟩, ⟨_, rfl, rfl⟩⟩

/-- SysIsTheNoOp: operands on both sides of the two words. -/
theorem test_meets_sys : (0x0E1#12 : Addr12) ≠ 0x0E0#12 ∧ (0x0E1#12 : Addr12) ≠ 0x0EE#12 ∧
    (0xFFF#12 : Addr12) ≠ 0x0E0#12 := by decide

/-- ReturnPopsTheStackOrUnderflows: an empty stack, and one entry under the invariant. -/
theorem test_meets_return : State.reset.stack = [] ∧ used.stack = 0x202#16 :: [] ∧ used.inv :=
  ⟨rfl, rfl, test_meets_invariant.1⟩

/-- CallPushesTheReturnAddressOrOverflows, CallThenReturnResumesAfterTheCall: 16 entries, and 15. -/
theorem test_meets_call :
    { State.reset with stack := List.replicate 16 0x202 }.stack.length = 16 ∧
    { State.reset with stack := List.replicate 15 0x202 }.stack.length ≠ 16 := by decide

/-- RegisterSkipsCompareTwoRegisters: the greatest low nibble of an illegal word. -/
theorem test_meets_strict_nibble : decodeWord 0x9ABF#16 = .error ⟨9, 10, 11, 15⟩ ∧
    decodeWord 0x5AB1#16 = .error ⟨5, 10, 11, 1⟩ := by decide

/-- AddSetsTheCarry, SubtractSetsNoBorrow, ReverseSubtractSetsNoBorrow, ShiftsMoveOneBitInPlace: a destination that is
not the flag register. -/
theorem test_meets_destination : (14 : Reg) ≠ 15 := by decide

/-- FlagWritesOverwriteVF: a flag-writing instruction that completes, and `VF` no operand of it. -/
theorem test_meets_flag_write : flagOperands (.addVxVy 0 1) = some [0, 1] ∧ State.reset.fault = none ∧
    (∃ t, exec (.addVxVy 0 1) State.reset = .next t ∧ t.fault = none) ∧ (15 : Reg) ∉ [(0 : Reg), 1] ∧
    ∃ t, exec (.addVxVy 0 1) (State.reset.setReg 15 0xFF) = .next t :=
  ⟨rfl, rfl, ⟨_, rfl, rfl⟩, by decide, ⟨_, rfl⟩⟩

/-- DrawIsTheXorOfTheClippedSprite: no row with `I` outside memory, the last range inside, the first outside. -/
theorem test_meets_draw : ((0x0#4).toNat = 0) ∧ (0xFF1#16).toNat + (0xF#4).toNat - 1 ≤ 0xFFF ∧
    0 < (0xF#4).toNat ∧ 0xFFF < (0xFF2#16).toNat + (0xF#4).toNat - 1 := by decide

/-- RedrawErases: registers that are not `VF`, a range inside memory, a clear display. -/
theorem test_meets_redraw : (0 : Reg) ≠ 15 ∧ (14 : Reg) ≠ 15 ∧
    (State.reset.i.toNat + (0x5#4).toNat - 1 ≤ 0xFFF) ∧
    ∀ row col, pixel State.reset.fb row col = false :=
  ⟨by decide, by decide, by decide, pixel_clearFb⟩

/-- KeySkipsReadTheLatch: the last key number, and the first above. -/
theorem test_meets_key_skip : ((withRegs [(1, 15)]).reg 1).toNat ≤ 15 ∧
    15 < ((withRegs [(1, 16)]).reg 1).toNat := by decide

/-- KeyWaitTakesTheLeastPressedKey: the last key alone, the first key, and none. -/
theorem test_meets_key_wait :
    ((State.reset.pressKey 15).keyDown 15 = true ∧
      ∀ j, j < 15 → (State.reset.pressKey 15).keyDown j = false) ∧
    (State.reset.pressKey 0).keyDown 0 = true ∧ ∀ k, State.reset.keyDown k = false := by
  refine ⟨⟨by decide, by decide⟩, by decide, fun k => ?_⟩
  by_cases h : k < 16 <;> simp [State.keyDown, State.reset, h]

/-- KeyWaitWithNoKeyIsFetchedAgain: FX0A fetched with no key pressed. -/
theorem test_meets_key_wait_step : (State.reset.withFetchWord 16 0xF30A).fault = none ∧
    fetch (State.reset.withFetchWord 16 0xF30A) = .ok 0xF30A#16 ∧
    decodeWord 0xF30A#16 = .ok (.ldVxK 3) ∧
    ∀ k, (State.reset.withFetchWord 16 0xF30A).keyDown k = false :=
  ⟨rfl, by decide, by decide, test_meets_key_wait.2.2⟩

/-- PressAndUnpressSetOneFlag: key 15 and key 16. -/
theorem test_meets_press : (15 : Nat) ≤ 15 ∧ 15 < (16 : Nat) := by decide

/-- DecimalStoreWritesThreeDigits: the last `I` that fits, and the next. -/
theorem test_meets_decimal : (0xFFD#16).toNat + 2 ≤ 0xFFF ∧ 0xFFF < (0xFFE#16).toNat + 2 := by decide

/-- RegisterStoreWritesV0ToVX, RegisterLoadReadsV0ToVX, StoreThenLoadRestoresTheRegisters: the last `I` that fits 16
registers, and the next. -/
theorem test_meets_registers : (0xFF0#16).toNat + (15 : Reg).val ≤ 0xFFF ∧
    0xFFF < (0xFF1#16).toNat + (15 : Reg).val ∧ (0xFFF#16).toNat + (0 : Reg).val ≤ 0xFFF := by decide

/-- StoresAreSeenByTheNextFetch: T138, a store over the instruction itself, the next word of which is stored as
well. -/
theorem test_meets_self_modification :
    (0x200#16).toNat + (3 : Reg).val ≤ 0xFFF ∧ (2 : Reg).val < (3 : Reg).val ∧
    (3 : Reg).val = (2 : Reg).val + 1 ∧ (0x202#16).toNat = (0x200#16).toNat + (2 : Reg).val := by decide

/-- CanonicalMemoriesThatReadAlikeAreEqual: two memories written in another order. -/
theorem test_meets_canonical :
    Memory.wf (Memory.write (Memory.write [] 0x300 1) 0x200 2) = true ∧
    Memory.wf (Memory.write (Memory.write [] 0x200 2) 0x300 1) = true ∧
    Memory.write (Memory.write [] 0x300 1) 0x200 2 = Memory.write (Memory.write [] 0x200 2) 0x300 1 := by
  decide

/-- RandomByteIsMasked: bytes supplied, none supplied, a clear bit of the mask. -/
theorem test_meets_random : { State.reset with drawInputs := [0xB7] }.drawInputs = 0xB7#8 :: [] ∧
    State.reset.drawInputs = [] ∧ (0x0F#8).getLsbD 4 = false := by decide

/-- EveryMaskedByteCanBeDrawn: CXNN fetched, a byte under the mask. -/
theorem test_meets_random_step : (State.reset.withFetchWord 16 0xC3F0).fault = none ∧
    fetch (State.reset.withFetchWord 16 0xC3F0) = .ok 0xC3F0#16 ∧
    decodeWord 0xC3F0#16 = .ok (.rndVxNn 3 0xF0#8) ∧ 0x70#8 &&& 0xF0#8 = 0x70#8 := by decide

/-- LoadCopiesTheProgram, OversizedLoadChangesNothing: S9, the longest blob that fits, and one byte more. -/
theorem test_meets_load : (List.replicate 3584 (0 : Byte)).length ≤ 3584 ∧
    programCapacity < (List.replicate 3585 (0 : Byte)).length ∧
    0 < (List.replicate 3584 (0 : Byte)).length := by
  simp only [List.length_replicate]
  decide

/-- DisplaySnapshotIsRowMajor: the last cell. -/
theorem test_meets_snapshot : 31 < 32 ∧ 63 < 64 ∧ 31 * 64 + 63 < 2048 := by decide

/-- CleanDirtyFlagMeansTheSameDisplay: a run without a clear that ends with the flag clear. -/
theorem test_meets_clean : Transaction.dirtyClear ∉ [Transaction.tickTimers, .getDisplay] ∧
    ∃ t, runTransactions [.tickTimers, .getDisplay] (withCells [(4, 3)]) = .next t ∧ t.dirty = false :=
  ⟨by decide, ⟨_, rfl, rfl⟩⟩

/-- OnlyTheNamedInstructionsWriteEachPart: instructions that change a byte, the stack, the `pc`, the index, a register, the
display, a timer and the account of draws. -/
theorem test_meets_writes :
    (∃ t, exec (.ldBVx 0) ((withRegs [(0, 7)]).setIndex 0x300) = .next t ∧
      t.readByte 0x302 ≠ ((withRegs [(0, 7)]).setIndex 0x300).readByte 0x302) ∧
    (∃ t, exec (.call 0x300#12) State.reset = .next t ∧ t.stack ≠ State.reset.stack ∧
      t.pc ≠ State.reset.pc) ∧
    (∃ t, exec (.ldINnn 0x300#12) State.reset = .next t ∧ t.i ≠ State.reset.i) ∧
    (∃ t, exec (.ldVxNn 3 0x07#8) State.reset = .next t ∧ t.reg 3 ≠ State.reset.reg 3) ∧
    (∃ t, exec .cls (withCells [(4, 3)]) = .next t ∧ t.dirty ≠ (withCells [(4, 3)]).dirty) ∧
    (∃ t, exec (.ldDtVx 0) (withRegs [(0, 7)]) = .next t ∧ t.dt ≠ (withRegs [(0, 7)]).dt) ∧
    (∃ t, exec (.ldStVx 0) (withRegs [(0, 7)]) = .next t ∧ t.st ≠ (withRegs [(0, 7)]).st) ∧
    ∃ t, exec (.rndVxNn 0 0xFF#8) State.reset = .next t ∧ t.drawCount ≠ State.reset.drawCount :=
  ⟨⟨_, rfl, by decide⟩, ⟨_, rfl, by decide, by decide⟩, ⟨_, rfl, by decide⟩, ⟨_, rfl, by decide⟩,
    ⟨_, rfl, by decide⟩, ⟨_, rfl, by decide⟩, ⟨_, rfl, by decide⟩, ⟨_, rfl, by decide⟩⟩

/-- SoundAndDirtyAreInvisible: a step. -/
theorem test_meets_invisible : ∃ t, step (State.reset.withFetchWord 16 0xF518) = .next t := ⟨_, rfl⟩

/-- SelfJumpChangesNothing, EndedRunsStayEndedAndFaultedRunsNeverEnd: T20, a jump to its own address, also at the last
even address of memory; not a jump elsewhere. -/
theorem test_meets_ended : (State.reset.withFetchWord 16 0x1200).ended ∧
    ({ State.reset with pc := 0xFFE }.withFetchWord 16 0x1FFE).ended ∧
    ¬ (State.reset.withFetchWord 16 0x1202).ended := by decide

/-- R181 (a): after one step of `00 EE 12 02` the next instruction is a jump to itself, but the state is faulted, and so
no end of a run. -/
theorem test_faulted_is_not_ended :
    ends (step (State.reset.loadProgram [0x00, 0xEE, 0x12, 0x02]))
      (fun t => decide (t.atSelfJump ∧ t.faulted ∧ ¬ t.ended)) = true := by decide

/-- EveryScheduleHasExactlyOneRun, EndedRunsStayEndedAndFaultedRunsNeverEnd: an infinite run without a reset, from a
faulted state that meets the invariant. -/
theorem test_meets_infinite_run : isRun (fun _ => .step 0) (fun _ => used) ∧ used.faulted ∧ used.inv ∧
    ∀ n, (fun _ => Transaction.step 0 : Schedule) n ≠ .reset :=
  ⟨fun _ => rfl, by decide, test_meets_invariant.1, fun _ h => nomatch h⟩

/-- The first transactions of a schedule, in order. -/
theorem test_first_transactions :
    firstTransactions (fun n => if n = 0 then .reset else .pressKey n) 3 =
      [.reset, .pressKey 1, .pressKey 2] := by decide

end Sys2Proof.Tests
end

section
/-!
PROOFS, family ALU. The flag-writing instructions (spec/41_alu.md R113): the flag each one computes, that it is a
function of the operands alone, and that it is what `VF` holds when the instruction completes.
-/

namespace Sys2Proof.Proofs

open Sys2Proof.Machine

/-- The flag a flag-writing instruction computes from the state before it (R107 to R111, R122); `false` for an
instruction that computes none. -/
def flagOut (i : Instr) (s : State) : Bool :=
  match i with
  | .addVxVy x y => carryOut (s.reg x) (s.reg y)
  | .subVxVy x y => noBorrow (s.reg x) (s.reg y)
  | .subnVxVy x y => noBorrow (s.reg y) (s.reg x)
  | .shrVx x _ => lowBit (s.reg x)
  | .shlVx x _ => highBit (s.reg x)
  | .drwVxVyN x y n => (s.drawSprite x y n).2
  | _ => false

/-- The flag-writing instructions one by one, each with its operands: a claim about all of them needs six cases. -/
theorem flagOperands_elim {motive : ∀ (i : Instr) (regs : List Reg), flagOperands i = some regs → Prop}
    (add : ∀ x y, motive (.addVxVy x y) [x, y] rfl) (sub : ∀ x y, motive (.subVxVy x y) [x, y] rfl)
    (subn : ∀ x y, motive (.subnVxVy x y) [x, y] rfl) (shr : ∀ x y, motive (.shrVx x y) [x] rfl)
    (shl : ∀ x y, motive (.shlVx x y) [x] rfl) (drw : ∀ x y n, motive (.drwVxVyN x y n) [x, y] rfl)
    {i : Instr} {regs : List Reg} (h : flagOperands i = some regs) : motive i regs h := by
  cases i <;> cases h
  case addVxVy => exact add _ _
  case subVxVy => exact sub _ _
  case subnVxVy => exact subn _ _
  case shrVx => exact shr _ _
  case shlVx => exact shl _ _
  case drwVxVyN => exact drw _ _ _

/-- A flag is one of the two bytes 0x00 and 0x01. -/
theorem flagByte_eq_zero_or_one (f : Bool) : flagByte f = 0x00#8 ∨ flagByte f = 0x01#8 := by
  cases f
  · exact .inl rfl
  · exact .inr rfl

/-- `VF` after a write with a flag is the flag, whichever register the result went to. -/
@[simp] theorem reg_writeWithFlag_flag (s : State) (x : Reg) (b : Byte) (f : Bool) :
    (s.writeWithFlag x b f).reg 15 = flagByte f := by
  rw [State.reg_writeWithFlag, if_pos rfl]

/-- The range check of a draw answers the fault of R197. -/
theorem rangeFault_draw (x y : Reg) (n : Nibble) (s : State) :
    rangeFault .draw s.base n.toNat = faultOf (.drwVxVyN x y n) s := by
  have hbound : (0 < n.toNat ∧ 4096 < s.i.toNat + n.toNat) ↔
      (0 < n.toNat ∧ 0xFFF < s.i.toNat + n.toNat - 1) := by omega
  simp only [rangeFault, faultOf, Config.memSize, State.base_eq, hbound]

/-- A flag-writing instruction raises its fault, or completes with its flag in `VF`. -/
theorem exec_flagWriter {i : Instr} {regs : List Reg} (hi : flagOperands i = some regs) (s : State) :
    (∃ f, faultOf i s = some f ∧ exec i s = raise f s) ∨
    (faultOf i s = none ∧ ∃ t, exec i s = .next t ∧ t.reg 15 = flagByte (flagOut i s)) := by
  cases hi using flagOperands_elim with
  | drw x y n =>
    have hexec : exec (.drwVxVyN x y n) s = execDrwVxVyN x y n s := rfl
    rw [hexec, execDrwVxVyN, rangeFault_draw x y]
    cases faultOf (.drwVxVyN x y n) s with
    | some f => exact .inl ⟨f, rfl, rfl⟩
    | none => exact .inr ⟨rfl, _, rfl, by simp [flagOut, State.drawSprite]⟩
  | _ => exact .inr ⟨rfl, _, rfl, reg_writeWithFlag_flag ..⟩

/-- The fault of a flag-writing instruction depends on no register. -/
theorem faultOf_setReg_of_flagWriter {i : Instr} {regs : List Reg} (hi : flagOperands i = some regs)
    (s : State) (r : Reg) (b : Byte) : faultOf i (s.setReg r b) = faultOf i s := by
  cases hi using flagOperands_elim <;> rfl

/-- A sprite depends on no register but those that hold its coordinates. -/
theorem drawSprite_setReg {x y r : Reg} (hx : x ≠ r) (hy : y ≠ r) (n : Nibble) (s : State) (b : Byte) :
    (s.setReg r b).drawSprite x y n = s.drawSprite x y n := by
  simp [State.drawSprite, State.readBytes, State.readByte, hx, hy]

/-- The flag depends on no register but the operands. -/
theorem flagOut_setReg {i : Instr} {regs : List Reg} (hi : flagOperands i = some regs) {r : Reg}
    (hr : r ∉ regs) (s : State) (b : Byte) : flagOut i (s.setReg r b) = flagOut i s := by
  have hne : ∀ x ∈ regs, x ≠ r := fun x hx e => hr (e ▸ hx)
  cases hi using flagOperands_elim with
  | drw x y n =>
    exact congrArg Prod.snd (drawSprite_setReg (hne x (by simp)) (hne y (by simp)) n s b)
  | _ => simp [flagOut, hne]

/-- `VF` after a flag-writing instruction that raises no fault is its flag. -/
theorem reg_flag_of_faultOf_none {i : Instr} {regs : List Reg} (hi : flagOperands i = some regs)
    {s t : State} (hf : faultOf i s = none) (h : exec i s = .next t) :
    t.reg 15 = flagByte (flagOut i s) := by
  rcases exec_flagWriter hi s with ⟨f, hsome, -⟩ | ⟨-, t', hexec, hreg⟩
  · rw [hf] at hsome; cases hsome
  · rw [hexec] at h; cases h; exact hreg

/-- A flag-writing instruction that leaves no fault latched raised none. -/
theorem faultOf_none_of_completes {i : Instr} {regs : List Reg} (hi : flagOperands i = some regs)
    {s t : State} (h : exec i s = .next t) (ht : t.fault = none) : faultOf i s = none := by
  rcases exec_flagWriter hi s with ⟨f, -, hraise⟩ | ⟨hnone, -⟩
  · rw [hraise] at h; cases h; cases ht
  · exact hnone

/-- Settles O31: `VF` holds the flag, and the flag and the fault do not depend on a `VF` that is no operand. -/
theorem flagWritesOverwriteVF : Obligations.FlagWritesOverwriteVF := by
  intro i regs s t hi _ hexec ht
  have hnone : faultOf i s = none := faultOf_none_of_completes hi hexec ht
  have hreg : t.reg 15 = flagByte (flagOut i s) := reg_flag_of_faultOf_none hi hnone hexec
  refine ⟨hreg ▸ flagByte_eq_zero_or_one _, fun b t' hVF hexec' => ?_⟩
  have hnone' : faultOf i (s.setReg 15 b) = none := by
    rw [faultOf_setReg_of_flagWriter hi, hnone]
  calc t'.reg 15 = flagByte (flagOut i (s.setReg 15 b)) := reg_flag_of_faultOf_none hi hnone' hexec'
    _ = flagByte (flagOut i s) := by rw [flagOut_setReg hi hVF]
    _ = t.reg 15 := hreg.symm

end Sys2Proof.Proofs
end

section
/-!
PROOFS, family TIMERS. The countdown of the two timers (spec/43_timers.md R134): the value of a timer after a tick, and
the frame of a tick.
-/

namespace Sys2Proof.Proofs

open Sys2Proof.Machine

/-- A countdown takes 1 off as a natural number, with no borrow, and rests at zero. -/
theorem toNat_countDown (b : Byte) :
    (countDown b).toNat = if 0 < b.toNat then b.toNat - 1 else 0 := by
  by_cases hzero : b = 0
  · subst hzero; rfl
  · have hpos : 0 < b.toNat := by bv_omega
    rw [countDown, if_neg hzero, if_pos hpos]
    bv_omega

/-- A tick may change the two timers and nothing else. -/
theorem frame_tickTimers (s : State) :
    changesOnly (fun p => p = .delay ∨ p = .sound) s s.tickTimers := by
  intro p hp
  cases p with
  | delay => exact absurd (.inl rfl) hp
  | sound => exact absurd (.inr rfl) hp
  | draws => exact ⟨rfl, rfl⟩
  | _ => rfl

/-- Settles O36: a tick completes in every state, each timer by its own countdown, with the frame of a tick. -/
theorem tickCountsBothTimersDown : Obligations.TickCountsBothTimersDown := fun s =>
  ⟨s.tickTimers, rfl, toNat_countDown s.dt, toNat_countDown s.st, frame_tickTimers s⟩

end Sys2Proof.Proofs
end

section
/-!
PROOFS, family KEYPAD. The two key transactions (spec/44_keypad.md R145, R146): the flag that a press or a release
leaves, over the frame and the key-range laws of `State.setKey`.
-/

namespace Sys2Proof.Proofs

open Sys2Proof.Machine

/-- The flag of a key in range holds what was written to it. -/
theorem keyDown_setKey_self (s : State) {n : Nat} (hn : n < 16) (b : Bool) :
    (s.setKey n b).keyDown n = b := by
  rw [State.keyDown_setKey, if_pos ⟨rfl, hn⟩]

/-- Settles O41: both transactions write one flag by `State.setKey`, which leaves a key out of range alone. -/
theorem pressAndUnpressSetOneFlag : Obligations.PressAndUnpressSetOneFlag := by
  intro n s
  refine ⟨fun hn => ?_, fun hn => ?_, fun _ => ⟨rfl, rfl⟩⟩
  · have hkey : n < 16 := by omega
    exact ⟨⟨s.setKey n true, rfl, keyDown_setKey_self s hkey true, frame_setKey s n true⟩,
      ⟨s.setKey n false, rfl, keyDown_setKey_self s hkey false, frame_setKey s n false⟩⟩
  · have hout : ¬ n < 16 := by omega
    exact ⟨congrArg complete (State.setKey_outside s true hout),
      congrArg complete (State.setKey_outside s false hout)⟩

end Sys2Proof.Proofs
end

section
/-!
PROOFS, family HOST OPERATIONS. The program load past the capacity (spec/48_host_operations.md R174): the one capacity
check decides both the state after the load and its response.
-/

namespace Sys2Proof.Proofs

open Sys2Proof.Machine

/-- A blob past the capacity does not fit the program region. -/
theorem fitsProgram_of_capacity_lt {bytes : List Byte} (h : programCapacity < bytes.length) :
    fitsProgram bytes = false :=
  decide_eq_false (Nat.not_le_of_lt h)

/-- The loader writes nothing of a blob that does not fit. -/
theorem loadProgram_of_not_fits {bytes : List Byte} (h : fitsProgram bytes = false) (s : State) :
    s.loadProgram bytes = s := by
  rw [State.loadProgram, h]; rfl

/-- The response to a blob that does not fit is the capacity error, whatever the states. -/
theorem respond_load_of_not_fits {bytes : List Byte} (h : fitsProgram bytes = false)
    (before after : State) : respond (.load bytes) before after = .capacityError := by
  rw [respond, h]; rfl

/-- Settles O53: a blob past the capacity fails the check that the state and the response both turn on. -/
theorem oversizedLoadChangesNothing : Obligations.OversizedLoadChangesNothing := by
  intro bytes s h
  have hfits : fitsProgram bytes = false := fitsProgram_of_capacity_lt h
  exact ⟨congrArg complete (loadProgram_of_not_fits hfits s), respond_load_of_not_fits hfits s s⟩

end Sys2Proof.Proofs
end

section
/-!
PROOFS, encoding. Decoder, encoder and opcode table (spec/30_encoding.md). What the decoder answers is read off the
three formats of R62 in both directions, and a row of the table selects by the fields its mask keeps.
-/

namespace Sys2Proof.Proofs

open Sys2Proof.Machine

/-! ### The word of an instruction decodes to it -/

/-- A word of format ADDR decodes as its major opcode and `NNN` say. -/
theorem decode?_addr {n3 : Nibble} {nnn : Addr12} {r : Option Instr}
    (h : ∀ x y n nn, decodeFields n3 x y n nn nnn = r) : decode? (encodeAddr n3 nnn) = r := by
  obtain ⟨x, y, n, nn, hdec⟩ := decode?_encodeAddr n3 nnn
  exact hdec.trans (h x y n nn)

/-- A word of format REGIMM or REG decodes as its major opcode, `X` and byte say. -/
theorem decode?_regByte {n3 : Nibble} {x : Reg} {nn : Byte} {r : Option Instr}
    (h : ∀ y n nnn, decodeFields n3 x y n nn nnn = r) : decode? (encodeRegByte n3 x nn) = r := by
  obtain ⟨y, n, nnn, hdec⟩ := decode?_encodeRegByte n3 x nn
  exact hdec.trans (h y n nnn)

/-- A word of format REGREG or REGREGN decodes as its major opcode, `X`, `Y` and low nibble say. -/
theorem decode?_regReg {n3 : Nibble} {x y : Reg} {n : Nibble} {r : Option Instr}
    (h : ∀ nn nnn, decodeFields n3 x y n nn nnn = r) : decode? (encodeRegReg n3 x y n) = r := by
  obtain ⟨nn, nnn, hdec⟩ := decode?_encodeRegReg n3 x y n
  exact hdec.trans (h nn nnn)

/-- The words with `n3 = 0` that are neither CLS nor RET are SYS (R67). -/
theorem decodeGroup0_of_sysOperandOk {nnn : Addr12} (h : sysOperandOk nnn = true) :
    decodeGroup0 nnn = .sys nnn := by
  simp only [sysOperandOk, Bool.and_eq_true, bne_iff_ne] at h
  rw [decodeGroup0, if_neg h.1, if_neg h.2]

theorem decode?_encode {i : Instr} (h : i.wf = true) : decode? (encode i) = some i := by
  cases i with
  | sys nnn =>
    exact decode?_addr fun _ _ _ _ => congrArg some (decodeGroup0_of_sysOperandOk h)
  | cls | ret => rfl
  | jp | call | ldINnn | jpV0Nnn => exact decode?_addr fun _ _ _ _ => rfl
  | seVxNn | sneVxNn | ldVxNn | addVxNn | rndVxNn | skpVx | sknpVx | ldVxDt | ldVxK | ldDtVx | ldStVx
  | addIVx | ldFVx | ldBVx | ldMemIVx | ldVxMemI => exact decode?_regByte fun _ _ _ => rfl
  | seVxVy | ldVxVy | orVxVy | andVxVy | xorVxVy | addVxVy | subVxVy | shrVx | subnVxVy | shlVx | sneVxVy
  | drwVxVyN => exact decode?_regReg fun _ _ => rfl

theorem decodeWord_encode {i : Instr} (h : i.wf = true) : decodeWord (encode i) = .ok i :=
  decodeWord_eq_ok.2 (decode?_encode h)

/-- Settles O3: every constructor by its format, SYS by its operand check; the two bytes make up the word. -/
theorem decodeOfEncodeIsTheInstruction : Obligations.DecodeOfEncodeIsTheInstruction := by
  intro i rest h
  refine ⟨decodeWord_encode h, ?_⟩
  simp only [encodeBytes, List.cons_append, List.nil_append, decodeBytes, wordOf_high_low,
    decodeWord_encode h]

/-! ### A word that decodes is the word of its instruction -/

/-- The word of an instruction is one of the three formats of R62 over the given fields. -/
def encodesFields (i : Instr) (n3 : Nibble) (x y : Reg) (n : Nibble) (nn : Byte) (nnn : Addr12) : Prop :=
  encode i = encodeAddr n3 nnn ∨ encode i = encodeRegByte n3 x nn ∨ encode i = encodeRegReg n3 x y n

/-- CLS, RET and SYS: well-formed, and in format ADDR. -/
theorem decodeGroup0_sound (nnn : Addr12) :
    (decodeGroup0 nnn).wf = true ∧ encode (decodeGroup0 nnn) = encodeAddr 0x0 nnn := by
  unfold decodeGroup0
  split
  · rename_i hcls; subst hcls; exact ⟨rfl, rfl⟩
  · split
    · rename_i hret; subst hret; exact ⟨rfl, rfl⟩
    · rename_i hcls hret; exact ⟨by simp [Instr.wf, sysOperandOk, hcls, hret], rfl⟩

theorem decodeGroup8_sound {x y : Reg} {n : Nibble} {i : Instr} (h : decodeGroup8 x y n = some i) :
    i.wf = true ∧ encode i = encodeRegReg 0x8 x y n := by
  unfold decodeGroup8 at h
  split at h <;> cases h <;> exact ⟨rfl, rfl⟩

theorem decodeGroupE_sound {x : Reg} {nn : Byte} {i : Instr} (h : decodeGroupE x nn = some i) :
    i.wf = true ∧ encode i = encodeRegByte 0xE x nn := by
  unfold decodeGroupE at h
  split at h <;> cases h <;> exact ⟨rfl, rfl⟩

theorem decodeGroupF_sound {x : Reg} {nn : Byte} {i : Instr} (h : decodeGroupF x nn = some i) :
    i.wf = true ∧ encode i = encodeRegByte 0xF x nn := by
  unfold decodeGroupF at h
  split at h <;> cases h <;> exact ⟨rfl, rfl⟩

/-- The decoder answers only well-formed instructions whose word has the fields it looked at. -/
theorem decodeFields_sound {n3 : Nibble} {x y : Reg} {n : Nibble} {nn : Byte} {nnn : Addr12} {i : Instr}
    (h : decodeFields n3 x y n nn nnn = some i) : i.wf = true ∧ encodesFields i n3 x y n nn nnn := by
  unfold decodeFields at h
  split at h
  case h_1 => cases h; exact (decodeGroup0_sound nnn).imp_right .inl
  case h_9 => exact (decodeGroup8_sound h).imp_right fun e => .inr (.inr e)
  case h_15 => exact (decodeGroupE_sound h).imp_right fun e => .inr (.inl e)
  case h_16 =>
    have hF : n3 = 0xF#4 := by simp only [imp_false] at *; bv_omega
    subst hF
    exact (decodeGroupF_sound h).imp_right fun e => .inr (.inl e)
  case h_6 | h_10 =>
    split at h <;> cases h
    rename_i hn; subst hn
    exact ⟨rfl, .inr (.inr rfl)⟩
  case h_2 | h_3 | h_11 | h_12 => cases h; exact ⟨rfl, .inl rfl⟩
  case h_14 => cases h; exact ⟨rfl, .inr (.inr rfl)⟩
  all_goals cases h; exact ⟨rfl, .inr (.inl rfl)⟩

/-- Settles O4: the fields of a word make it up again in each of the three formats. -/
theorem encodeOfDecodeIsTheWord : Obligations.EncodeOfDecodeIsTheWord := by
  intro op i h
  obtain ⟨hwf, hword⟩ := decodeFields_sound (decodeWord_eq_ok.1 h)
  rcases hword with e | e | e
  · exact ⟨hwf, e.trans (encodeAddr_of_fields op)⟩
  · exact ⟨hwf, e.trans (encodeRegByte_of_fields op)⟩
  · exact ⟨hwf, e.trans (encodeRegReg_of_fields op)⟩

/-! ### The opcode table -/

/-- The rows of the table with a given major opcode, in their order. -/
def rowsOf (n3 : Nibble) : List Row := opcodeTable.filter (fun r => (fieldsOf r.pattern).n3 == n3)

/-- Every mask of the table keeps the whole major opcode. -/
theorem n3_of_mask : ∀ r ∈ opcodeTable, (fieldsOf r.mask).n3 = 0xF#4 := by decide

/-- A row that a word selects has the major opcode of the word. -/
theorem n3_of_selects {r : Row} {op : Word} (hr : r ∈ opcodeTable) (h : r.selects op = true) :
    (fieldsOf r.pattern).n3 = (fieldsOf op).n3 := by
  have hand : (fieldsOf (op &&& r.mask)).n3 = (fieldsOf op).n3 &&& (fieldsOf r.mask).n3 :=
    BitVec.extractLsb'_and
  rw [← beq_iff_eq.1 h, hand, n3_of_mask r hr, Laws.TableRow.and_F]

/-- Only the rows with the major opcode of a word decide its mnemonic. -/
theorem tableMnemonic_eq_rowsOf {op : Word} {n3 : Nibble} (h : (fieldsOf op).n3 = n3) :
    tableMnemonic op = ((rowsOf n3).find? fun r => r.selects op).map Row.mnemonic := by
  rw [tableMnemonic, rowsOf, List.find?_filter]
  refine congrArg _ (List.find?_congr fun r hr => ?_)
  rw [Bool.eq_iff_iff, decide_eq_true_iff, beq_iff_eq]
  exact ⟨fun hsel => ⟨(n3_of_selects hr hsel).trans h, hsel⟩, And.right⟩

/-- Mask FFFF: a row that keeps everything is selected by its pattern alone. -/
theorem selects_word (name : String) (p op : Word) : Row.selects ⟨name, 0xFFFF#16, p⟩ op = (op == p) :=
  congrArg (· == p) (BitVec.and_allOnes (x := op))

/-- Mask F000: a row that keeps the major opcode alone is selected by every word that has it. -/
theorem selects_addr {op : Word} {n3 : Nibble} (name : String) (h : (fieldsOf op).n3 = n3) :
    Row.selects ⟨name, 0xF000#16, encodeAddr n3 0x000⟩ op = true := by
  have hmask := Laws.TableRow.mask_addr (fieldsOf op).n3 (immAddr op)
  rw [encodeAddr_of_fields, h] at hmask
  exact beq_iff_eq.2 hmask

/-- Mask F00F: a row that keeps the low nibble too is selected by the words that have both. -/
theorem selects_regReg {op : Word} {n3 : Nibble} (name : String) (n : Nibble) (h : (fieldsOf op).n3 = n3) :
    Row.selects ⟨name, 0xF00F#16, encodeRegReg n3 0 0 n⟩ op = ((fieldsOf op).n == n) := by
  have hmask := Laws.TableRow.mask_regReg (fieldsOf op).n3 (regOf (fieldsOf op).x) (regOf (fieldsOf op).y)
    (fieldsOf op).n
  rw [encodeRegReg_of_fields, h] at hmask
  rw [Row.selects, hmask, Bool.eq_iff_iff, beq_iff_eq, beq_iff_eq]
  refine ⟨fun he => ?_, fun he => by rw [he]; rfl⟩
  exact BitVec.extractLsb'_append_eq_right.symm.trans
    ((congrArg (BitVec.extractLsb' 0 4) he).trans BitVec.extractLsb'_append_eq_right)

/-- Mask F0FF: a row that keeps the low byte too is selected by the words that have both. -/
theorem selects_regByte {op : Word} {n3 : Nibble} (name : String) (nn : Byte) (h : (fieldsOf op).n3 = n3) :
    Row.selects ⟨name, 0xF0FF#16, encodeRegByte n3 0 nn⟩ op = (immByte op == nn) := by
  have hmask := Laws.TableRow.mask_reg (fieldsOf op).n3 (regOf (fieldsOf op).x) (immByte op)
  rw [encodeRegByte_of_fields, h] at hmask
  rw [Row.selects, hmask, Bool.eq_iff_iff, beq_iff_eq, beq_iff_eq]
  refine ⟨fun he => ?_, fun he => by rw [he]; rfl⟩
  exact BitVec.extractLsb'_append_eq_right.symm.trans
    ((congrArg (BitVec.extractLsb' 0 8) he).trans BitVec.extractLsb'_append_eq_right)

/-- A major opcode with one row, which keeps nothing else. -/
theorem tableMnemonic_addr {op : Word} {n3 : Nibble} {name : String} (h : (fieldsOf op).n3 = n3)
    (hrows : rowsOf n3 = [⟨name, 0xF000#16, encodeAddr n3 0x000⟩]) : tableMnemonic op = some name := by
  rw [tableMnemonic_eq_rowsOf h, hrows, List.find?_cons, selects_addr name h]
  rfl

/-- A major opcode whose rows differ in the low nibble: the register skips and the group 8. -/
theorem tableMnemonic_regReg {op : Word} {n3 : Nibble} (l : List (String × Nibble))
    (h : (fieldsOf op).n3 = n3)
    (hrows : rowsOf n3 = l.map fun r => ⟨r.1, 0xF00F#16, encodeRegReg n3 0 0 r.2⟩) :
    tableMnemonic op = (l.find? fun r => (fieldsOf op).n == r.2).map Prod.fst := by
  rw [tableMnemonic_eq_rowsOf h, hrows, List.find?_map, Option.map_map]
  simp only [Function.comp_def, selects_regReg _ _ h]

/-- A major opcode whose rows differ in the low byte: the groups E and F. -/
theorem tableMnemonic_regByte {op : Word} {n3 : Nibble} (l : List (String × Byte))
    (h : (fieldsOf op).n3 = n3)
    (hrows : rowsOf n3 = l.map fun r => ⟨r.1, 0xF0FF#16, encodeRegByte n3 0 r.2⟩) :
    tableMnemonic op = (l.find? fun r => immByte op == r.2).map Prod.fst := by
  rw [tableMnemonic_eq_rowsOf h, hrows, List.find?_map, Option.map_map]
  simp only [Function.comp_def, selects_regByte _ _ h]

theorem tableMnemonic_group8 {op : Word} (x y : Reg) (h : (fieldsOf op).n3 = 0x8#4) :
    tableMnemonic op = (decodeGroup8 x y (fieldsOf op).n).map mnemonicOf := by
  rw [tableMnemonic_regReg [("LD_VX_VY", 0x0), ("OR_VX_VY", 0x1), ("AND_VX_VY", 0x2), ("XOR_VX_VY", 0x3),
    ("ADD_VX_VY", 0x4), ("SUB_VX_VY", 0x5), ("SHR_VX", 0x6), ("SUBN_VX_VY", 0x7), ("SHL_VX", 0xE)] h (by rfl)]
  generalize (fieldsOf op).n = n
  unfold decodeGroup8
  split
  case h_10 => simp_all
  all_goals rfl

theorem tableMnemonic_groupE {op : Word} (x : Reg) (h : (fieldsOf op).n3 = 0xE#4) :
    tableMnemonic op = (decodeGroupE x (immByte op)).map mnemonicOf := by
  rw [tableMnemonic_regByte [("SKP_VX", 0x9E), ("SKNP_VX", 0xA1)] h (by rfl)]
  generalize immByte op = nn
  unfold decodeGroupE
  split
  case h_3 => simp_all
  all_goals rfl

theorem tableMnemonic_groupF {op : Word} (x : Reg) (h : (fieldsOf op).n3 = 0xF#4) :
    tableMnemonic op = (decodeGroupF x (immByte op)).map mnemonicOf := by
  rw [tableMnemonic_regByte [("LD_VX_DT", 0x07), ("LD_VX_K", 0x0A), ("LD_DT_VX", 0x15), ("LD_ST_VX", 0x18),
    ("ADD_I_VX", 0x1E), ("LD_F_VX", 0x29), ("LD_B_VX", 0x33), ("LD_MEM_I_VX", 0x55), ("LD_VX_MEM_I", 0x65)]
    h (by rfl)]
  generalize immByte op = nn
  unfold decodeGroupF
  split
  case h_10 => simp_all
  all_goals rfl

/-- CLS and RET come before SYS (R64). -/
theorem tableMnemonic_group0 {op : Word} (h : (fieldsOf op).n3 = 0x0#4) :
    tableMnemonic op = some (mnemonicOf (decodeGroup0 (immAddr op))) := by
  have hrows : rowsOf 0x0#4 = [⟨"CLS", 0xFFFF#16, 0x00E0#16⟩, ⟨"RET", 0xFFFF#16, 0x00EE#16⟩,
    ⟨"SYS", 0xF000#16, encodeAddr 0x0#4 0x000⟩] := by rfl
  rw [tableMnemonic_eq_rowsOf h, hrows]
  simp only [List.find?_cons, selects_word, selects_addr _ h]
  have hop : op = encodeAddr 0x0#4 (immAddr op) := by rw [← h, encodeAddr_of_fields]
  by_cases hcls : immAddr op = 0x0E0#12
  · rw [hop, hcls]; rfl
  · by_cases hret : immAddr op = 0x0EE#12
    · rw [hop, hret]; rfl
    · have hcls' : (op == 0x00E0#16) = false := beq_false_of_ne fun e => hcls (e ▸ rfl)
      have hret' : (op == 0x00EE#16) = false := beq_false_of_ne fun e => hret (e ▸ rfl)
      rw [hcls', hret', decodeGroup0, if_neg hcls, if_neg hret]
      rfl

/-- The table answers the mnemonic of the decoded instruction, major opcode by major opcode. -/
theorem tableMnemonic_eq_decode? (op : Word) : tableMnemonic op = (decode? op).map mnemonicOf := by
  unfold decode? decodeFields
  split <;> rename_i hn3
  case h_1 => exact tableMnemonic_group0 hn3
  case h_6 =>
    rw [tableMnemonic_regReg [("SE_VX_VY", 0x0)] hn3 (by rfl)]
    split <;> simp_all [mnemonicOf]
  case h_9 => exact tableMnemonic_group8 _ _ hn3
  case h_10 =>
    rw [tableMnemonic_regReg [("SNE_VX_VY", 0x0)] hn3 (by rfl)]
    split <;> simp_all [mnemonicOf]
  case h_15 => exact tableMnemonic_groupE _ hn3
  case h_16 => exact tableMnemonic_groupF _ (by simp only [imp_false] at *; bv_omega)
  all_goals exact tableMnemonic_addr hn3 (by rfl)

/-- Settles O5: the table and the decoder agree major opcode by major opcode, on the legal and the illegal words. -/
theorem decoderFollowsTheOpcodeTable : Obligations.DecoderFollowsTheOpcodeTable := by
  intro op
  rw [tableMnemonic_eq_decode?, decodeWord]
  cases decode? op <;> rfl

/-! ### The illegal words -/

theorem decodeGroup8_eq_none {x y : Reg} {n : Nibble} :
    decodeGroup8 x y n = none ↔ n.toNat ∈ [8, 9, 0xA, 0xB, 0xC, 0xD, 0xF] := by
  unfold decodeGroup8
  split
  case h_10 => simp only [imp_false, true_iff, List.mem_cons, List.not_mem_nil, or_false] at *; bv_omega
  all_goals simp

theorem decodeGroupE_eq_none {x : Reg} {nn : Byte} :
    decodeGroupE x nn = none ↔ nn.toNat ∉ [0x9E, 0xA1] := by
  unfold decodeGroupE
  split
  case h_3 => simp only [imp_false, true_iff, List.mem_cons, List.not_mem_nil, or_false] at *; bv_omega
  all_goals simp

theorem decodeGroupF_eq_none {x : Reg} {nn : Byte} : decodeGroupF x nn = none ↔
    nn.toNat ∉ [0x07, 0x0A, 0x15, 0x18, 0x1E, 0x29, 0x33, 0x55, 0x65] := by
  unfold decodeGroupF
  split
  case h_10 => simp only [imp_false, true_iff, List.mem_cons, List.not_mem_nil, or_false] at *; bv_omega
  all_goals simp

theorem decodeFields_eq_none {n3 : Nibble} {x y : Reg} {n : Nibble} {nn : Byte} {nnn : Addr12} :
    decodeFields n3 x y n nn nnn = none ↔
      (n3.toNat = 5 ∧ n.toNat ≠ 0) ∨ (n3.toNat = 9 ∧ n.toNat ≠ 0) ∨
      (n3.toNat = 8 ∧ n.toNat ∈ [8, 9, 0xA, 0xB, 0xC, 0xD, 0xF]) ∨
      (n3.toNat = 0xE ∧ nn.toNat ∉ [0x9E, 0xA1]) ∨
      (n3.toNat = 0xF ∧ nn.toNat ∉ [0x07, 0x0A, 0x15, 0x18, 0x1E, 0x29, 0x33, 0x55, 0x65]) := by
  unfold decodeFields
  split
  case h_9 => rw [decodeGroup8_eq_none]; simp
  case h_15 => rw [decodeGroupE_eq_none]; simp
  case h_16 =>
    have hF : n3 = 0xF#4 := by simp only [imp_false] at *; bv_omega
    rw [decodeGroupF_eq_none]; simp [hF]
  case h_6 | h_10 => simp [BitVec.toNat_eq]
  all_goals simp

theorem fieldsOf_toNat (op : Word) : (fieldsOf op).n3.toNat = op.toNat / 4096 ∧
    (fieldsOf op).x.toNat = op.toNat / 256 % 16 ∧ (fieldsOf op).y.toNat = op.toNat / 16 % 16 ∧
    (fieldsOf op).n.toNat = op.toNat % 16 := by
  simp only [fieldsOf, BitVec.extractLsb'_toNat, Nat.shiftRight_eq_div_pow, true_and]
  omega

theorem immByte_toNat (op : Word) : (immByte op).toNat = op.toNat % 256 := by
  simp [immByte]

theorem eq_fieldsOf_iff (f : Fields) (op : Word) : f = fieldsOf op ↔
    f.n3.toNat = op.toNat / 4096 ∧ f.x.toNat = op.toNat / 256 % 16 ∧
    f.y.toNat = op.toNat / 16 % 16 ∧ f.n.toNat = op.toNat % 16 := by
  obtain ⟨h3, hx, hy, hn⟩ := fieldsOf_toNat op
  rw [← h3, ← hx, ← hy, ← hn]
  simp only [BitVec.toNat_inj]
  cases f
  exact Iff.of_eq (Fields.mk.injEq ..)

/-- Settles O6: no arm of the decoder applies to exactly the listed words, and the fields are those of the word. -/
theorem illegalWordsAreExactlyTheListedOnes : Obligations.IllegalWordsAreExactlyTheListedOnes := by
  intro op f
  obtain ⟨hn3, -, -, hn⟩ := fieldsOf_toNat op
  rw [decodeWord_eq_error, decode?, decodeFields_eq_none, eq_fieldsOf_iff, hn3, hn, immByte_toNat, and_comm]
  simp only [and_assoc]

/-- Settles O7: each of the words is computed by the decoder. -/
theorem sampleWordsDecodeToTheirInstructions : Obligations.SampleWordsDecodeToTheirInstructions := by
  unfold Obligations.SampleWordsDecodeToTheirInstructions
  decide

end Sys2Proof.Proofs
end

section
/-!
PROOFS, the meanings as one law. An instruction raises the fault of `faultOf` and changes nothing else, or it leaves the
state `completed`. What each instruction writes, whether it faults, what it keeps and what it does not look at are then
claims about `completed`, case by case over the 35 constructors.
-/

namespace Sys2Proof.Proofs

open Sys2Proof.Machine

/-- The state in which an instruction that raises no fault completes; `exec_cases` ties it to `exec`. -/
def completed (i : Instr) (s : State) : State :=
  match i with
  | .sys _ => s
  | .cls => { s with fb := clearFb, dirty := true }
  | .ret => { s with pc := s.stack.headD 0, stack := s.stack.tail }
  | .jp nnn => s.setPc (addrOf nnn)
  | .call nnn => { s with pc := addrOf nnn, stack := s.pc :: s.stack }
  | .seVxNn x nn => s.skipIf (s.reg x == nn)
  | .sneVxNn x nn => s.skipIf (s.reg x != nn)
  | .seVxVy x y => s.skipIf (s.reg x == s.reg y)
  | .ldVxNn x nn => s.setReg x nn
  | .addVxNn x nn => s.setReg x (s.reg x + nn)
  | .ldVxVy x y => s.setReg x (s.reg y)
  | .orVxVy x y => s.setReg x (s.reg x ||| s.reg y)
  | .andVxVy x y => s.setReg x (s.reg x &&& s.reg y)
  | .xorVxVy x y => s.setReg x (s.reg x ^^^ s.reg y)
  | .addVxVy x y => s.writeWithFlag x (s.reg x + s.reg y) (carryOut (s.reg x) (s.reg y))
  | .subVxVy x y => s.writeWithFlag x (s.reg x - s.reg y) (noBorrow (s.reg x) (s.reg y))
  | .shrVx x _ => s.writeWithFlag x (s.reg x >>> 1) (lowBit (s.reg x))
  | .subnVxVy x y => s.writeWithFlag x (s.reg y - s.reg x) (noBorrow (s.reg y) (s.reg x))
  | .shlVx x _ => s.writeWithFlag x (s.reg x <<< 1) (highBit (s.reg x))
  | .sneVxVy x y => s.skipIf (s.reg x != s.reg y)
  | .ldINnn nnn => s.setIndex (addrOf nnn)
  | .jpV0Nnn nnn => s.setPc (addrOf nnn + s.regWord 0)
  | .rndVxNn x nn => s.afterDraw.setReg x (s.drawnByte &&& nn)
  | .drwVxVyN x y n =>
    { s with fb := (s.drawSprite x y n).1, dirty := true }.setFlag (s.drawSprite x y n).2
  | .skpVx x => s.skipIf (s.keyDown (s.reg x).toNat)
  | .sknpVx x => s.skipIf (!s.keyDown (s.reg x).toNat)
  | .ldVxDt x => s.setReg x s.dt
  | .ldVxK x => s.leastKey.elim (s.setPc (s.pc - 2)) fun k => s.setReg x (BitVec.ofNat 8 k)
  | .ldDtVx x => { s with dt := s.reg x }
  | .ldStVx x => { s with st := s.reg x }
  | .addIVx x => s.setIndex (s.i + s.regWord x)
  | .ldFVx x => s.setIndex (glyphAddr (s.reg x))
  | .ldBVx x => s.writeBytes s.i.toNat (decimalDigits (s.reg x))
  | .ldMemIVx x => s.writeBytes s.i.toNat (s.regsUpTo x)
  | .ldVxMemI x => { s with v := loadRegs s.v 0 (s.readBytes s.i.toNat (x.val + 1)) }

/-! ### The fault of each check is that of `faultOf` -/

/-- The range check over `n + 1` cells, in the words of R154 to R156: the last of them is out of memory. -/
theorem rangeFault_succ (kind : AccessKind) (first n : Nat) : rangeFault kind first (n + 1) =
    if 0xFFF < first + n then some (.accessDefect kind (max first 0x1000)) else none := by
  have hbound : (0 < n + 1 ∧ 4096 < first + (n + 1)) ↔ 0xFFF < first + n := by omega
  simp only [rangeFault, Config.memSize, hbound]

/-- The key check, in the words of R147. -/
theorem keyFault_eq (k : Nat) : keyFault k = if 15 < k then some (.accessDefect .key k) else none := by
  by_cases h : k < 16
  · rw [keyFault_inside h, if_neg (by omega)]
  · rw [keyFault_outside h, if_pos (by omega)]

/-- The checks of the model are the conditions of `faultOf`; the one of a draw is `rangeFault_draw`. -/
theorem keyFault_skp (x : Reg) (s : State) : keyFault (s.keyNumber x) = faultOf (.skpVx x) s := keyFault_eq _

theorem keyFault_sknp (x : Reg) (s : State) : keyFault (s.keyNumber x) = faultOf (.sknpVx x) s := keyFault_eq _

theorem rangeFault_decimal (x : Reg) (s : State) :
    rangeFault .store s.base (decimalDigits (s.reg x)).length = faultOf (.ldBVx x) s := rangeFault_succ ..

theorem rangeFault_store (x : Reg) (s : State) :
    rangeFault .store s.base (s.regsUpTo x).length = faultOf (.ldMemIVx x) s := by
  rw [regsUpTo_length]; exact rangeFault_succ ..

theorem rangeFault_load (x : Reg) (s : State) :
    rangeFault .load s.base (regCount x) = faultOf (.ldVxMemI x) s := rangeFault_succ ..

/-- Every instruction raises exactly the fault of `faultOf`, or raises none and completes. -/
theorem exec_eq (i : Instr) (s : State) :
    exec i s = (faultOf i s).elim (.next (completed i s)) (raise · s) := by
  cases i with
  | ret =>
    rw [show exec .ret s = execRet s from rfl]
    unfold execRet faultOf completed
    cases s.stack <;> rfl
  | call nnn =>
    rw [show exec (.call nnn) s = execCall nnn s from rfl]
    unfold execCall faultOf State.stackFull stackDepth
    by_cases h : s.stack.length = 16
    · rw [if_pos h, if_pos (beq_iff_eq.2 h)]; rfl
    · rw [if_neg h, if_neg (mt beq_iff_eq.1 h)]; rfl
  | drwVxVyN x y n =>
    rw [show exec (.drwVxVyN x y n) s = execDrwVxVyN x y n s from rfl, execDrwVxVyN, rangeFault_draw x y]
    cases faultOf (.drwVxVyN x y n) s <;> rfl
  | skpVx x =>
    rw [show exec (.skpVx x) s = execSkpVx x s from rfl, execSkpVx, keyFault_skp]
    cases faultOf (.skpVx x) s <;> rfl
  | sknpVx x =>
    rw [show exec (.sknpVx x) s = execSknpVx x s from rfl, execSknpVx, keyFault_sknp]
    cases faultOf (.sknpVx x) s <;> rfl
  | ldVxK x =>
    rw [show exec (.ldVxK x) s = execLdVxK x s from rfl]
    unfold execLdVxK completed
    cases s.leastKey <;> rfl
  | ldBVx x =>
    rw [show exec (.ldBVx x) s = execLdBVx x s from rfl, execLdBVx, storeAtIndex, rangeFault_decimal]
    cases faultOf (.ldBVx x) s <;> rfl
  | ldMemIVx x =>
    rw [show exec (.ldMemIVx x) s = execLdMemIVx x s from rfl, execLdMemIVx, storeAtIndex, rangeFault_store]
    cases faultOf (.ldMemIVx x) s <;> rfl
  | ldVxMemI x =>
    rw [show exec (.ldVxMemI x) s = execLdVxMemI x s from rfl, execLdVxMemI, rangeFault_load]
    cases faultOf (.ldVxMemI x) s <;> rfl
  | _ => rfl

/-- An instruction on whose condition `faultOf` answers a fault latches it and changes nothing else. -/
theorem exec_of_fault {i : Instr} {s : State} {f : Fault} (h : faultOf i s = some f) :
    exec i s = .next { s with fault := some f } := by
  rw [exec_eq, h]; rfl

/-- An instruction on whose condition `faultOf` answers none completes. -/
theorem exec_of_no_fault {i : Instr} {s : State} (h : faultOf i s = none) :
    exec i s = .next (completed i s) := by
  rw [exec_eq, h]; rfl

/-- INVERSION of an instruction: a fault is latched and nothing else changes, or none is raised and it completes. -/
theorem exec_cases {i : Instr} {s t : State} (h : exec i s = .next t) :
    (∃ f, faultOf i s = some f ∧ t = { s with fault := some f }) ∨
    (faultOf i s = none ∧ t = completed i s) := by
  cases hf : faultOf i s with
  | some f => rw [exec_of_fault hf] at h; cases h; exact .inl ⟨f, rfl, rfl⟩
  | none => rw [exec_of_no_fault hf] at h; cases h; exact .inr ⟨rfl, rfl⟩

/-! ### The frames of the updates that have no name of their own -/

theorem frame_fault (s : State) (f : Option Fault) :
    changesOnly (fun p => p = .fault) s { s with fault := f } := by
  intro p hp
  cases p with
  | fault => exact absurd rfl hp
  | draws => exact ⟨rfl, rfl⟩
  | _ => rfl

theorem frame_pc_stack (s : State) (a : Word) (l : List Word) :
    changesOnly (fun p => p = .pc ∨ p = .stack) s { s with pc := a, stack := l } := by
  intro p hp
  cases p with
  | pc => exact absurd (.inl rfl) hp
  | stack => exact absurd (.inr rfl) hp
  | draws => exact ⟨rfl, rfl⟩
  | _ => rfl

theorem frame_fb_dirty (s : State) (fb : Framebuffer) (d : Bool) :
    changesOnly (fun p => (∃ y x, p = .cell y x) ∨ p = .dirty) s { s with fb := fb, dirty := d } := by
  intro p hp
  cases p with
  | cell y x => exact absurd (.inl ⟨y, x, rfl⟩) hp
  | dirty => exact absurd (.inr rfl) hp
  | draws => exact ⟨rfl, rfl⟩
  | _ => rfl

theorem frame_dt (s : State) (b : Byte) : changesOnly (fun p => p = .delay) s { s with dt := b } := by
  intro p hp
  cases p with
  | delay => exact absurd rfl hp
  | draws => exact ⟨rfl, rfl⟩
  | _ => rfl

theorem frame_st (s : State) (b : Byte) : changesOnly (fun p => p = .sound) s { s with st := b } := by
  intro p hp
  cases p with
  | sound => exact absurd rfl hp
  | draws => exact ⟨rfl, rfl⟩
  | _ => rfl

theorem frame_afterDraw (s : State) : changesOnly (fun p => p = .draws) s s.afterDraw := by
  intro p hp
  cases p with
  | draws => exact absurd rfl hp
  | reg r => exact State.reg_congr (by simp) r
  | byte a => exact State.readByte_congr (by simp) a
  | key k => exact State.keyDown_congr (by simp) k
  | _ => simp [Part.same]

/-- The registers past a load of the first `bs.length` ones are kept. -/
theorem frame_loadRegs (s : State) (bs : List Byte) :
    changesOnly (fun p => ∃ r : Reg, r.val < bs.length ∧ p = .reg r) s { s with v := loadRegs s.v 0 bs } := by
  intro p hp
  cases p with
  | reg r =>
    have hr : ¬ r.val < bs.length := fun h => hp ⟨r, h, rfl⟩
    exact (loadRegs_getElem bs s.v 0 r.val r.isLt).trans (if_neg (by omega))
  | draws => exact ⟨rfl, rfl⟩
  | _ => rfl

theorem frame_draw (s : State) (fb : Framebuffer) (d f : Bool) :
    changesOnly (fun p => p = .reg 15 ∨ (∃ y x, p = .cell y x) ∨ p = .dirty) s
      ({ s with fb := fb, dirty := d }.setFlag f) :=
  changesOnly_trans (changesOnly_mono (frame_fb_dirty s fb d) fun _ => .inr)
    (changesOnly_mono (frame_setReg _ 15 _) fun _ => .inl)

theorem frame_rnd (s : State) (x : Reg) (b : Byte) :
    changesOnly (fun p => p = .reg x ∨ p = .draws) s (s.afterDraw.setReg x b) :=
  changesOnly_trans (changesOnly_mono (frame_afterDraw s) fun _ => .inr)
    (changesOnly_mono (frame_setReg _ x b) fun _ => .inl)

/-! ### What each instruction writes -/

/-- The parts an instruction may write (spec/10_state.md R11 to R25): the instructions that write each part. -/
def writes (i : Instr) : Part → Prop
  | .reg r =>
    (∃ nn, i = .ldVxNn r nn ∨ i = .addVxNn r nn ∨ i = .rndVxNn r nn) ∨
    (∃ y, i = .ldVxVy r y ∨ i = .orVxVy r y ∨ i = .andVxVy r y ∨ i = .xorVxVy r y ∨ i = .addVxVy r y ∨
      i = .subVxVy r y ∨ i = .shrVx r y ∨ i = .subnVxVy r y ∨ i = .shlVx r y) ∨
    i = .ldVxDt r ∨ i = .ldVxK r ∨ (∃ x, r.val ≤ x.val ∧ i = .ldVxMemI x) ∨
    (r = 15 ∧ (flagOperands i).isSome = true)
  | .index => (∃ nnn, i = .ldINnn nnn) ∨ (∃ x, i = .addIVx x) ∨ ∃ x, i = .ldFVx x
  | .pc => mnemonicOf i ∈ ["JP", "CALL", "RET", "JP_V0_NNN", "SE_VX_NN", "SNE_VX_NN", "SE_VX_VY",
      "SNE_VX_VY", "SKP_VX", "SKNP_VX", "LD_VX_K"]
  | .stack => i = .ret ∨ ∃ nnn, i = .call nnn
  | .delay => ∃ x, i = .ldDtVx x
  | .sound => ∃ x, i = .ldStVx x
  | .byte _ => (∃ x, i = .ldBVx x) ∨ ∃ x, i = .ldMemIVx x
  | .cell _ _ => i = .cls ∨ ∃ x y n, i = .drwVxVyN x y n
  | .dirty => i = .cls ∨ ∃ x y n, i = .drwVxVyN x y n
  | .key _ => False
  | .fault => False
  | .draws => ∃ x nn, i = .rndVxNn x nn

theorem frame_completed (i : Instr) (s : State) : changesOnly (writes i) s (completed i s) := by
  cases i with
  | sys => exact changesOnly_refl _ s
  | jp | jpV0Nnn => exact changesOnly_mono (frame_setPc s _) (by rintro _ rfl; simp [writes, mnemonicOf])
  | ldINnn | addIVx | ldFVx => exact changesOnly_mono (frame_setIndex s _) (by rintro _ rfl; simp [writes])
  | seVxNn | sneVxNn | seVxVy | sneVxVy | skpVx | sknpVx =>
    exact changesOnly_mono (frame_skipIf s _) (by rintro _ rfl; simp [writes, mnemonicOf])
  | ldVxNn | addVxNn | ldVxVy | orVxVy | andVxVy | xorVxVy | ldVxDt =>
    exact changesOnly_mono (frame_setReg s _ _) (by rintro _ rfl; simp [writes])
  | addVxVy | subVxVy | subnVxVy | shrVx | shlVx =>
    exact changesOnly_mono (frame_writeWithFlag s _ _ _) (by rintro _ (rfl | rfl) <;> simp [writes, flagOperands])
  | ldBVx | ldMemIVx =>
    exact changesOnly_mono (frame_writeBytes s _ _) (by rintro _ ⟨_, _, rfl⟩; simp [writes])
  | cls => exact changesOnly_mono (frame_fb_dirty s _ _) (by rintro _ (⟨_, _, rfl⟩ | rfl) <;> simp [writes])
  | ret | call =>
    exact changesOnly_mono (frame_pc_stack s _ _) (by rintro _ (rfl | rfl) <;> simp [writes, mnemonicOf])
  | rndVxNn => exact changesOnly_mono (frame_rnd s _ _) (by rintro _ (rfl | rfl) <;> simp [writes])
  | drwVxVyN =>
    exact changesOnly_mono (frame_draw s _ _ _)
      (by rintro _ (rfl | ⟨_, _, rfl⟩ | rfl) <;> simp [writes, flagOperands])
  | ldVxK x =>
    unfold completed
    cases s.leastKey with
    | some k => exact changesOnly_mono (frame_setReg s _ _) (by rintro _ rfl; simp [writes])
    | none => exact changesOnly_mono (frame_setPc s _) (by rintro _ rfl; simp [writes, mnemonicOf])
  | ldDtVx => exact changesOnly_mono (frame_dt s _) (by rintro _ rfl; simp [writes])
  | ldStVx => exact changesOnly_mono (frame_st s _) (by rintro _ rfl; simp [writes])
  | ldVxMemI x =>
    refine changesOnly_mono (frame_loadRegs s _) ?_
    rintro _ ⟨r, hr, rfl⟩
    rw [readBytes_length] at hr
    exact .inr (.inr (.inr (.inr (.inl ⟨x, Nat.le_of_lt_succ hr, rfl⟩))))

/-- An instruction changes nothing but the latch and the parts it writes. -/
theorem exec_frame {i : Instr} {s t : State} (h : exec i s = .next t) :
    changesOnly (fun p => writes i p ∨ p = .fault) s t := by
  rcases exec_cases h with ⟨f, -, rfl⟩ | ⟨-, rfl⟩
  · exact changesOnly_mono (frame_fault s _) fun _ => .inr
  · exact changesOnly_mono (frame_completed i s) fun _ => .inl

/-- A part that an instruction changed is the latch or one that it writes. -/
theorem writes_of_changed {i : Instr} {s t : State} (h : exec i s = .next t) {p : Part}
    (hp : p ≠ .fault) (hchanged : ¬ p.same s t) : writes i p := by
  by_contra hw
  exact hchanged (exec_frame h p (by simp [hw, hp]))

/-- Two keypads that read alike are the same. -/
theorem key_ext {s t : State} (h : ∀ k, t.keyDown k = s.keyDown k) : t.key = s.key := by
  ext k hk
  simpa [State.keyDown, hk] using h k

/-- A display that changed shows a cell that changed. -/
theorem exists_cell_of_fb_ne {s t : State} (h : t.fb ≠ s.fb) : ∃ y x, ¬ (Part.cell y x).same s t := by
  by_contra hall
  simp only [not_exists, not_not] at hall
  exact h (framebuffer_ext fun y x _ _ => hall y x)

/-- Settles O56: each part by the frame of the instruction; the display and the keypad cell by cell and key by key. -/
theorem onlyTheNamedInstructionsWriteEachPart : Obligations.OnlyTheNamedInstructionsWriteEachPart := by
  intro i s t h
  refine ⟨?_, ?_, ?_, ?_, ?_, ?_, ?_, ?_, ?_, ?_⟩
  · rintro ⟨a, ha⟩
    exact writes_of_changed (p := .byte a) h nofun ha
  · rintro (hfb | hdirty)
    · obtain ⟨y, x, hcell⟩ := exists_cell_of_fb_ne hfb
      exact writes_of_changed (p := .cell y x) h nofun hcell
    · exact writes_of_changed (p := .dirty) h nofun hdirty
  · exact writes_of_changed (p := .stack) h nofun
  · exact writes_of_changed (p := .index) h nofun
  · exact writes_of_changed (p := .delay) h nofun
  · exact writes_of_changed (p := .sound) h nofun
  · exact key_ext fun k => by_contra fun hk => writes_of_changed (p := .key k) h nofun hk
  · exact fun hdraws => writes_of_changed (p := .draws) h nofun (not_and_or.2 hdraws)
  · exact writes_of_changed (p := .pc) h nofun
  · exact fun r => writes_of_changed (p := .reg r) h nofun

/-- Settles O12: an instruction latches exactly the fault of `faultOf`, and no completed one writes the latch. -/
theorem instructionsFaultExactlyWhenTheRulesSay : Obligations.InstructionsFaultExactlyWhenTheRulesSay := by
  intro i s hs
  cases hf : faultOf i s with
  | some f => exact ⟨_, exec_of_fault hf, rfl⟩
  | none => exact ⟨_, exec_of_no_fault hf, (frame_completed i s .fault id).trans hs⟩

end Sys2Proof.Proofs
end

section
/-!
PROOFS, the step and its faults (spec/30_encoding.md R60, spec/60_exceptions.md). The outcome of a step is one of the
four of `step_cases`; every transaction answers a next state.
-/

namespace Sys2Proof.Proofs

open Sys2Proof.Machine

/-! ### The four outcomes of a step -/

theorem step_of_latched {s : State} {f : Fault} (h : s.fault = some f) : step s = .next s := by
  unfold step; rw [h]; rfl

theorem step_of_fetch_error {s : State} {f : Fault} (h : s.fault = none) (hop : fetch s = .error f) :
    step s = .next { s with fault := some f } := by
  unfold step; rw [h, hop]; rfl

theorem step_of_illegal {s : State} {op : Word} {f : Fields} (h : s.fault = none) (hop : fetch s = .ok op)
    (hf : decodeWord op = .error f) :
    step s = .next { s with pc := s.pc + 2, fault := some (illegalFault f) } := by
  unfold step; rw [h, hop]; simp only [hf]; rfl

theorem step_of_decoded {s : State} {op : Word} {i : Instr} (h : s.fault = none) (hop : fetch s = .ok op)
    (hi : decodeWord op = .ok i) : step s = exec i s.advance := by
  unfold step; rw [h, hop]; simp only [hi]

/-- Settles O8: the latch, the fetch that leaves memory, the decoded instruction and the illegal word. -/
theorem stepRunsTheDecodedInstruction : Obligations.StepRunsTheDecodedInstruction := by
  intro s
  refine ⟨fun f hf => step_of_latched hf, fun hf hpc => ?_, fun hf hpc => ?_⟩
  · exact step_of_fetch_error hf (fetch_outside (by omega))
  · have hop := fetch_inside (s := s) (by omega)
    exact ⟨fun i hi => step_of_decoded hf hop hi, fun f hf' => step_of_illegal hf hop hf'⟩

theorem wordOf_toNat (hi lo : Byte) : (wordOf hi lo).toNat = hi.toNat * 256 + lo.toNat := by
  have hlo := lo.isLt
  rw [wordOf, BitVec.toNat_append, ← Nat.shiftLeft_add_eq_or_of_lt hlo, Nat.shiftLeft_eq]

/-- Settles O9: the fetch inside memory and the fetch that leaves it. -/
theorem fetchReadsTheBigEndianWord : Obligations.FetchReadsTheBigEndianWord := fun _ =>
  ⟨fun hpc => ⟨_, fetch_inside (by omega), wordOf_toNat ..⟩, fun hpc => fetch_outside (by omega)⟩

/-! ### No step and no transaction stops -/

theorem exec_answers (i : Instr) (s : State) : ∃ t, exec i s = .next t := by
  cases hf : faultOf i s with
  | some f => exact ⟨_, exec_of_fault hf⟩
  | none => exact ⟨_, exec_of_no_fault hf⟩

theorem step_answers (s : State) : ∃ t, step s = .next t := by
  rcases step_cases (s := s) rfl with ⟨_, _, h⟩ | ⟨_, _, _, h⟩ | ⟨_, _, _, _, _, h⟩ | ⟨_, i, _, _, _, h⟩
  · exact ⟨_, h⟩
  · exact ⟨_, h⟩
  · exact ⟨_, h⟩
  · exact h ▸ exec_answers i s.advance

/-- A step transaction is a step with its drawn byte as the only supplied one; the supplied bytes are put back. -/
theorem stepDrawing_of_step {s t : State} {drawn : Byte}
    (h : step { s with drawInputs := [drawn] } = .next t) :
    transact (.step drawn) s = .next { t with drawInputs := s.drawInputs } :=
  congrArg (withStream s.drawInputs) h

/-- INVERSION of a step transaction. -/
theorem step_of_stepDrawing {s t : State} {drawn : Byte} (h : transact (.step drawn) s = .next t) :
    ∃ u, step { s with drawInputs := [drawn] } = .next u ∧ t = { u with drawInputs := s.drawInputs } := by
  obtain ⟨u, hu⟩ := step_answers { s with drawInputs := [drawn] }
  rw [stepDrawing_of_step hu] at h
  cases h
  exact ⟨u, hu, rfl⟩

theorem transact_answers (tr : Transaction) (s : State) : ∃ t, transact tr s = .next t := by
  cases tr with
  | step drawn =>
    obtain ⟨u, hu⟩ := step_answers { s with drawInputs := [drawn] }
    exact ⟨_, stepDrawing_of_step hu⟩
  | _ => exact ⟨_, rfl⟩

/-- Settles O10: a step by its four outcomes, a transaction by its constructor. -/
theorem everyTransactionAnswersANextState : Obligations.EveryTransactionAnswersANextState := fun s =>
  ⟨step_answers s, fun tr => transact_answers tr s⟩

/-! ### The latch -/

/-- A step transaction on a latched engine changes nothing. -/
theorem stepDrawing_of_latched {s : State} {f : Fault} (h : s.fault = some f) (drawn : Byte) :
    transact (.step drawn) s = .next s :=
  stepDrawing_of_step (t := { s with drawInputs := [drawn] }) (step_of_latched h)

/-- No transaction but reset clears the latch. -/
theorem fault_kept_of_latched {s t : State} {f : Fault} {tr : Transaction} (hf : s.fault = some f)
    (hne : tr ≠ .reset) (h : transact tr s = .next t) : t.fault = some f := by
  cases tr with
  | reset => exact absurd rfl hne
  | step drawn => rw [stepDrawing_of_latched hf] at h; cases h; exact hf
  | load bytes => cases h; rw [State.loadProgram_fault, hf]
  | pressKey n => cases h; exact (State.setKey_fault ..).trans hf
  | unpressKey n => cases h; exact (State.setKey_fault ..).trans hf
  | _ => cases h; exact hf

/-- Settles O11: the latch is kept by every transaction but reset, under which the timers and keys go on. -/
theorem onlyResetClearsTheLatch : Obligations.OnlyResetClearsTheLatch := by
  intro s f hf
  refine ⟨step_of_latched hf, fun b => ⟨stepDrawing_of_latched hf b, ?_⟩, fun tr t h => ?_, fun t h => ?_,
    fun k t hk h => ?_⟩
  · simp only [respond, stepResponse, hf]
  · by_cases htr : tr = .reset
    · subst htr; cases h; exact .inl ⟨rfl, rfl⟩
    · exact .inr ⟨htr, fault_kept_of_latched hf htr h⟩
  · cases h
    rw [State.tickTimers_dt, toNat_countDown]
    split <;> omega
  · cases h
    exact keyDown_setKey_self s (by omega) true

/-! ### A fault changes the latch and the `pc` alone -/

/-- No instruction raises the fault of a fetch. -/
theorem faultOf_ne_fetch (i : Instr) (s : State) (a : Nat) :
    faultOf i s ≠ some (.accessDefect .fetch a) := by
  cases i <;> simp [faultOf]

/-- Settles O13: by the outcomes of a step; an instruction that completes leaves no fault latched. -/
theorem faultsArePrecise : Obligations.FaultsArePrecise := by
  intro s t f hs h ht
  rcases step_cases h with ⟨f', hf', _⟩ | ⟨f', _, hop, he⟩ | ⟨_, f', _, _, _, he⟩ | ⟨_, i, _, _, _, he⟩
  · rw [hs] at hf'; cases hf'
  · cases he
    cases ht
    by_cases hpc : s.pc.toNat + 1 < 4096
    · rw [fetch_inside hpc] at hop; cases hop
    · rw [fetch_outside hpc] at hop
      cases hop
      exact ⟨fun _ => ⟨rfl, by omega⟩, fun hne => absurd rfl (hne _)⟩
  · cases he
    cases ht
    exact ⟨nofun, fun _ => rfl⟩
  · rcases exec_cases he.symm with ⟨f', hf', rfl⟩ | ⟨_, rfl⟩
    · cases ht
      exact ⟨fun ⟨a, ha⟩ => absurd (ha ▸ hf') (faultOf_ne_fetch i _ a), fun _ => rfl⟩
    · have hnone : (completed i s.advance).fault = none := (frame_completed i s.advance .fault id).trans hs
      rw [hnone] at ht; cases ht

end Sys2Proof.Proofs
end

section
/-!
PROOFS, the invariant (spec/10_state.md R17, R19; spec/40_control_flow.md R83). It holds after reset, an instruction
fetched inside memory keeps it, and so does every transaction; runs carry it along.
-/

namespace Sys2Proof.Proofs

open Sys2Proof.Machine

/-- Settles O2: the reset state is a small closed case, and the invariant reads none of the two fields a reset keeps. -/
theorem resetMeetsTheInvariant : Obligations.ResetMeetsTheInvariant := by
  have hreset : State.reset.inv := ⟨rfl, Nat.zero_le _, nofun, by decide⟩
  exact ⟨hreset, fun s t h => by cases h; exact hreset⟩

/-! ### An instruction keeps the invariant -/

/-- Memory stays canonical: a store that raises no fault lies inside memory (D13). -/
theorem mem_wf_completed {i : Instr} {s : State} (hf : faultOf i s = none) (h : s.mem.wf = true) :
    (completed i s).mem.wf = true := by
  have hstore : ∀ bs : List Byte, 0 < bs.length → rangeFault .store s.base bs.length = none →
      (s.mem.writeList s.i.toNat bs).wf = true := fun bs hpos hrange =>
    Memory.wf_writeList (((rangeFault_eq_none ..).1 hrange).resolve_left hpos.ne') h
  cases i with
  | ldBVx x => exact hstore _ (Nat.succ_pos _) ((rangeFault_decimal x s).trans hf)
  | ldMemIVx x => exact hstore _ (by simp) ((rangeFault_store x s).trans hf)
  | ldVxK x => unfold completed; cases s.leastKey <;> exact h
  | _ => simpa [completed] using h

/-- The stack keeps its bounds: CALL raises a fault on a full one, and pushes a `pc` of at most 0x1000. -/
theorem stack_bounds_completed {i : Instr} {s : State} (hf : faultOf i s = none)
    (hlen : s.stack.length ≤ stackDepth) (hret : ∀ a ∈ s.stack, a.toNat ≤ 0x1000)
    (hpc : s.pc.toNat ≤ 0x1000) :
    (completed i s).stack.length ≤ stackDepth ∧ ∀ a ∈ (completed i s).stack, a.toNat ≤ 0x1000 := by
  cases i with
  | ret =>
    exact ⟨(List.tail_sublist s.stack).length_le.trans hlen, fun a ha => hret a (List.mem_of_mem_tail ha)⟩
  | call nnn =>
    have hroom : s.stack.length ≠ 16 := fun hfull => by simp [faultOf, hfull] at hf
    exact ⟨Nat.lt_of_le_of_ne hlen hroom, List.forall_mem_cons.2 ⟨hpc, hret⟩⟩
  | _ =>
    rw [frame_completed _ s .stack (by simp [writes])]
    exact ⟨hlen, hret⟩

theorem addrOf_toNat (nnn : Addr12) : (addrOf nnn).toNat = nnn.toNat := by
  have := nnn.isLt
  simp only [addrOf, BitVec.toNat_setWidth]
  omega

theorem regWord_toNat (s : State) (x : Reg) : (s.regWord x).toNat = (s.reg x).toNat := by
  have := (s.reg x).isLt
  simp only [State.regWord, BitVec.toNat_setWidth]
  omega

/-- The sum of BNNN is never reduced: it is at most 0x10FE (R85, R17). -/
theorem addrOf_add_regWord_toNat (nnn : Addr12) (s : State) (x : Reg) :
    (addrOf nnn + s.regWord x).toNat = nnn.toNat + (s.reg x).toNat := by
  have := nnn.isLt
  have := (s.reg x).isLt
  rw [BitVec.toNat_add, addrOf_toNat, regWord_toNat]
  omega

/-- The `pc` keeps its bound: past memory by a fetch and a skip, or by the 255 of BNNN (R17). -/
theorem pc_bound_completed {i : Instr} {s : State} (hret : ∀ a ∈ s.stack, a.toNat ≤ 0x1000)
    (hpc : s.pc.toNat ≤ 0x1000) (hadv : 2 ≤ s.pc.toNat) : (completed i s).pc.toNat ≤ 0x10FE := by
  cases i with
  | ret =>
    unfold completed
    cases hs : s.stack with
    | nil => simp
    | cons a rest =>
      have := hret a (by simp [hs])
      simp only [List.headD_cons]
      omega
  | jp nnn | call nnn =>
    have := nnn.isLt
    have : (addrOf nnn).toNat ≤ 0x10FE := by rw [addrOf_toNat]; omega
    exact this
  | jpV0Nnn nnn =>
    have := nnn.isLt
    have := (s.reg 0).isLt
    have : (addrOf nnn + s.regWord 0).toNat ≤ 0x10FE := by rw [addrOf_add_regWord_toNat]; omega
    exact this
  | seVxNn | sneVxNn | seVxVy | sneVxVy | skpVx | sknpVx =>
    simp only [completed, State.skipIf_pc]
    split
    · bv_omega
    · omega
  | ldVxK =>
    unfold completed
    cases s.leastKey with
    | some k => exact hpc.trans (by decide)
    | none => simp only [Option.elim_none, State.setPc_pc]; bv_omega
  | _ =>
    rw [frame_completed _ s .pc (by simp [writes, mnemonicOf])]
    omega

/-- An instruction that starts just past a fetch keeps the invariant. -/
theorem inv_of_exec {i : Instr} {s t : State} (hinv : s.inv) (hpc : s.pc.toNat ≤ 0x1000)
    (hadv : 2 ≤ s.pc.toNat) (h : exec i s = .next t) : t.inv := by
  obtain ⟨hmem, hlen, hret, hbound⟩ := hinv
  rcases exec_cases h with ⟨f, -, rfl⟩ | ⟨hf, rfl⟩
  · exact ⟨hmem, hlen, hret, hbound⟩
  · obtain ⟨hlen', hret'⟩ := stack_bounds_completed hf hlen hret hpc
    exact ⟨mem_wf_completed hf hmem, hlen', hret', pc_bound_completed hret hpc hadv⟩

/-- A fetch that answers a word leaves the advanced `pc` just past it. -/
theorem advance_pc_bounds {s : State} {op : Word} (h : fetch s = .ok op) :
    s.advance.pc.toNat ≤ 0x1000 ∧ 2 ≤ s.advance.pc.toNat := by
  have := fetch_ok_bound h
  rw [State.advance_pc]
  constructor <;> bv_omega

theorem inv_advance {s : State} {op : Word} (hinv : s.inv) (h : fetch s = .ok op) : s.advance.inv := by
  obtain ⟨hmem, hlen, hret, -⟩ := hinv
  exact ⟨hmem, hlen, hret, (advance_pc_bounds h).1.trans (by decide)⟩

theorem inv_of_step {s t : State} (hinv : s.inv) (h : step s = .next t) : t.inv := by
  rcases step_cases h with ⟨_, _, he⟩ | ⟨_, _, _, he⟩ | ⟨_, _, _, hop, _, he⟩ | ⟨_, i, _, hop, _, he⟩
  · cases he; exact hinv
  · cases he; exact hinv
  · cases he; exact inv_advance hinv hop
  · exact inv_of_exec (inv_advance hinv hop) (advance_pc_bounds hop).1 (advance_pc_bounds hop).2 he.symm

/-- Settles O14: by the outcomes of a step; an instruction by its memory, its stack and its `pc`. -/
theorem stepKeepsTheInvariant : Obligations.StepKeepsTheInvariant := fun _ _ => inv_of_step

/-! ### Every transaction keeps the invariant -/

theorem mem_wf_loadProgram {s : State} (bytes : List Byte) (h : s.mem.wf = true) :
    (s.loadProgram bytes).mem.wf = true := by
  rw [State.loadProgram_eq]
  split
  · rename_i hfits
    exact Memory.wf_writeList (by simp only [Config.memSize]; omega) h
  · exact h

theorem inv_of_transact {tr : Transaction} {s t : State} (hinv : s.inv) (h : transact tr s = .next t) :
    t.inv := by
  cases tr with
  | reset => exact resetMeetsTheInvariant.2 s t h
  | load bytes =>
    cases h
    obtain ⟨hmem, hlen, hret, hpc⟩ := hinv
    exact ⟨mem_wf_loadProgram bytes hmem, by rwa [State.loadProgram_stack], by rwa [State.loadProgram_stack],
      by rwa [State.loadProgram_pc]⟩
  | step drawn =>
    obtain ⟨u, hu, rfl⟩ := step_of_stepDrawing h
    have hu' : u.inv := inv_of_step (s := { s with drawInputs := [drawn] }) hinv hu
    exact hu'
  | pressKey n | unpressKey n =>
    cases h
    simpa [State.inv, State.pressKey, State.unpressKey] using hinv
  | _ => cases h; exact hinv

/-- An invariant of every transaction is one of every run. -/
theorem runTransactions_induction {motive : State → Prop}
    (hstep : ∀ {tr s t}, motive s → transact tr s = .next t → motive t) {ts : List Transaction} {s t : State}
    (hs : motive s) (h : runTransactions ts s = .next t) : motive t := by
  induction ts generalizing s with
  | nil => cases h; exact hs
  | cons tr ts ih =>
    obtain ⟨u, hu⟩ := transact_answers tr s
    rw [runTransactions_cons ts hu] at h
    exact ih (hstep hs hu) h

/-- Settles O15: by induction over the transactions. -/
theorem everyRunOfTheHostKeepsTheInvariant : Obligations.EveryRunOfTheHostKeepsTheInvariant :=
  fun _ _ _ => runTransactions_induction inv_of_transact

end Sys2Proof.Proofs
end

section
/-!
PROOFS, what no program can learn, the dirty flag over runs, infinite runs and ends of runs
(spec/10_state.md R21, R25, R29; spec/48_host_operations.md R178, R181).
-/

namespace Sys2Proof.Proofs

open Sys2Proof.Machine

/-! ### The sound timer and the dirty flag are invisible -/

/-- The first state is the second but for the sound timer and the dirty flag. -/
def sameButHidden (t' t : State) : Prop := { t' with st := t.st, dirty := t.dirty } = t

/-- No instruction's fault looks at the hidden pieces. -/
theorem faultOf_hidden (i : Instr) (s : State) (st : Byte) (dirty : Bool) :
    faultOf i { s with st := st, dirty := dirty } = faultOf i s := by
  cases i <;> rfl

/-- An instruction that completes reads neither of the hidden pieces. -/
theorem completed_hidden (i : Instr) (s : State) (st : Byte) (dirty : Bool) :
    sameButHidden (completed i { s with st := st, dirty := dirty }) (completed i s) := by
  unfold sameButHidden
  cases i with
  | seVxNn | sneVxNn | seVxVy | sneVxVy | skpVx | sknpVx =>
    simp only [completed, State.skipIf_eq]
    rfl
  | rndVxNn =>
    unfold completed State.afterDraw State.drawnByte
    cases s.drawInputs <;> rfl
  | ldVxK =>
    rw [completed, completed, show State.leastKey { s with st := st, dirty := dirty } = s.leastKey from rfl]
    cases s.leastKey <;> rfl
  | _ => rfl

theorem exec_hidden {i : Instr} {s t : State} (st : Byte) (dirty : Bool) (h : exec i s = .next t) :
    ∃ t', exec i { s with st := st, dirty := dirty } = .next t' ∧ sameButHidden t' t := by
  rcases exec_cases h with ⟨f, hf, rfl⟩ | ⟨hf, rfl⟩
  · exact ⟨_, exec_of_fault ((faultOf_hidden i s st dirty).trans hf), rfl⟩
  · exact ⟨_, exec_of_no_fault ((faultOf_hidden i s st dirty).trans hf), completed_hidden i s st dirty⟩

/-- Settles O57: the latch, the fetch and the decoder do not look at the hidden pieces, and no instruction does. -/
theorem soundAndDirtyAreInvisible : Obligations.SoundAndDirtyAreInvisible := by
  intro s t st dirty h
  rcases step_cases h with
    ⟨f, hf, he⟩ | ⟨f, hs, hop, he⟩ | ⟨op, f, hs, hop, hd, he⟩ | ⟨op, i, hs, hop, hd, he⟩
  · cases he; exact ⟨_, step_of_latched hf, rfl⟩
  · cases he; exact ⟨_, step_of_fetch_error hs hop, rfl⟩
  · cases he; exact ⟨_, step_of_illegal hs hop hd, rfl⟩
  · obtain ⟨t', ht', hsame⟩ := exec_hidden st dirty he.symm
    exact ⟨t', (step_of_decoded (s := { s with st := st, dirty := dirty }) hs hop hd).trans ht', hsame⟩

/-! ### The dirty flag over a run -/

/-- An instruction that leaves `dirty` 0 found it 0 and left the display alone. -/
theorem fb_kept_of_exec_clean {i : Instr} {s t : State} (h : exec i s = .next t) (hd : t.dirty = false) :
    t.fb = s.fb ∧ s.dirty = false := by
  by_cases hw : i = .cls ∨ ∃ x y n, i = .drwVxVyN x y n
  · rcases exec_cases h with ⟨f, -, rfl⟩ | ⟨-, rfl⟩
    · exact ⟨rfl, hd⟩
    · rcases hw with rfl | ⟨x, y, n, rfl⟩ <;> cases hd
  · obtain ⟨-, hkept, -⟩ := onlyTheNamedInstructionsWriteEachPart i s t h
    obtain ⟨hfb, hdirty⟩ := not_or.1 (mt hkept hw)
    exact ⟨not_not.1 hfb, (not_not.1 hdirty).symm.trans hd⟩

theorem fb_kept_of_step_clean {s t : State} (h : step s = .next t) (hd : t.dirty = false) :
    t.fb = s.fb ∧ s.dirty = false := by
  rcases step_cases h with ⟨_, _, he⟩ | ⟨_, _, _, he⟩ | ⟨_, _, _, _, _, he⟩ | ⟨_, i, _, _, _, he⟩
  · cases he; exact ⟨rfl, hd⟩
  · cases he; exact ⟨rfl, hd⟩
  · cases he; exact ⟨rfl, hd⟩
  · exact fb_kept_of_exec_clean (s := s.advance) he.symm hd

/-- A transaction but the clear that leaves `dirty` 0 found it 0 and left the display alone. -/
theorem fb_kept_of_transact_clean {tr : Transaction} {s t : State} (hne : tr ≠ .dirtyClear)
    (h : transact tr s = .next t) (hd : t.dirty = false) : t.fb = s.fb ∧ s.dirty = false := by
  cases tr with
  | dirtyClear => exact absurd rfl hne
  | reset => cases h; cases hd
  | load bytes => cases h; exact ⟨State.loadProgram_fb .., (State.loadProgram_dirty ..).symm.trans hd⟩
  | step drawn =>
    obtain ⟨u, hu, rfl⟩ := step_of_stepDrawing h
    exact fb_kept_of_step_clean (s := { s with drawInputs := [drawn] }) (t := u) hu hd
  | pressKey n | unpressKey n => cases h; exact ⟨State.setKey_fb .., (State.setKey_dirty ..).symm.trans hd⟩
  | _ => cases h; exact ⟨rfl, hd⟩

theorem fb_kept_of_run_clean {ts : List Transaction} {s t : State} (hne : .dirtyClear ∉ ts)
    (h : runTransactions ts s = .next t) (hd : t.dirty = false) : t.fb = s.fb ∧ s.dirty = false := by
  induction ts generalizing s with
  | nil => cases h; exact ⟨rfl, hd⟩
  | cons tr ts ih =>
    obtain ⟨hhead, htail⟩ := List.ne_and_not_mem_of_not_mem_cons hne
    obtain ⟨u, hu⟩ := transact_answers tr s
    rw [runTransactions_cons ts hu] at h
    obtain ⟨hfb, hdirty⟩ := ih htail h
    obtain ⟨hfb', hdirty'⟩ := fb_kept_of_transact_clean hhead.symm hu hdirty
    exact ⟨hfb.trans hfb', hdirty'⟩

theorem frame_clearDirty (s : State) : changesOnly (fun p => p = .dirty) s s.clearDirty := by
  intro p hp
  cases p with
  | dirty => exact absurd rfl hp
  | draws => exact ⟨rfl, rfl⟩
  | _ => rfl

/-- Settles O55: the query and the clear by definition; the run by induction over its transactions. -/
theorem cleanDirtyFlagMeansTheSameDisplay : Obligations.CleanDirtyFlagMeansTheSameDisplay :=
  ⟨fun s => ⟨rfl, rfl, s.clearDirty, rfl, rfl, frame_clearDirty s⟩,
    fun _ _ _ hne h hd => fb_kept_of_run_clean hne h hd⟩

/-! ### Infinite runs -/

/-- The state a transaction leads to; `transact_eq_next` ties it to `transact`. -/
def afterTransaction (tr : Transaction) (s : State) : State :=
  match transact tr s with
  | .next t => t
  | .fault _ => s
  | .refused _ => s

theorem transact_eq_next (tr : Transaction) (s : State) :
    transact tr s = .next (afterTransaction tr s) := by
  obtain ⟨t, ht⟩ := transact_answers tr s
  rw [afterTransaction, ht]

/-- The states a schedule leads through from a state. -/
def trajectory (schedule : Schedule) (s : State) : Nat → State
  | 0 => s
  | n + 1 => afterTransaction (schedule n) (trajectory schedule s n)

theorem isRun_trajectory (schedule : Schedule) (s : State) : isRun schedule (trajectory schedule s) :=
  fun n => transact_eq_next (schedule n) (trajectory schedule s n)

/-- Along an infinite run the first transactions are a finite run. -/
theorem run_firstTransactions {schedule : Schedule} {states : Nat → State} (h : isRun schedule states)
    (n : Nat) : runTransactions (firstTransactions schedule n) (states 0) = .next (states n) := by
  induction n with
  | zero => rfl
  | succ n ih =>
    rw [firstTransactions_succ, runTransactions_append _ ih, runTransactions_cons _ (h n)]
    rfl

/-- Settles O59: a run is determined by the finite runs it starts with, and each of them keeps the invariant. -/
theorem everyScheduleHasExactlyOneRun : Obligations.EveryScheduleHasExactlyOneRun := by
  intro schedule s
  have hfinite := run_firstTransactions (isRun_trajectory schedule s)
  refine ⟨trajectory schedule s, rfl, isRun_trajectory schedule s, fun states' hzero hrun => ?_, hfinite,
    fun hinv n => everyRunOfTheHostKeepsTheInvariant _ _ _ hinv (hfinite n)⟩
  funext n
  have hn := run_firstTransactions hrun n
  rw [hzero, show s = trajectory schedule s 0 from rfl, hfinite n] at hn
  exact (Host.Outcome.next.inj hn).symm

/-! ### Ends of a run -/

/-- Settles O58: the word at `pc` decodes to a jump to `pc`, which completes where it started. -/
theorem selfJumpChangesNothing : Obligations.SelfJumpChangesNothing := by
  rintro s ⟨hrunning, hjump⟩
  obtain ⟨op, nnn, hop, hd, hpc⟩ := atSelfJump_decoded hjump
  refine ⟨?_, by simp only [stepResponse, hrunning]⟩
  rw [step_of_decoded hrunning hop hd, exec_of_no_fault rfl, completed, hpc]
  rfl

/-- A step transaction at the end of a run changes nothing. -/
theorem stepDrawing_of_ended {s : State} (h : s.ended) (drawn : Byte) :
    transact (.step drawn) s = .next s :=
  stepDrawing_of_step (t := { s with drawInputs := [drawn] })
    (selfJumpChangesNothing { s with drawInputs := [drawn] } h).1

theorem run_of_ended {s : State} {ts : List Transaction} (h : s.ended)
    (hsteps : ∀ tr ∈ ts, ∃ drawn, tr = .step drawn) : runTransactions ts s = .next s := by
  induction ts with
  | nil => rfl
  | cons tr ts ih =>
    obtain ⟨⟨drawn, rfl⟩, hrest⟩ := List.forall_mem_cons.1 hsteps
    rw [runTransactions_cons ts (stepDrawing_of_ended h drawn)]
    exact ih hrest

theorem fault_kept_of_run {schedule : Schedule} {states : Nat → State} {f : Fault}
    (hrun : isRun schedule states) (hf : (states 0).fault = some f) (hne : ∀ n, schedule n ≠ .reset)
    (n : Nat) : (states n).fault = some f := by
  induction n with
  | zero => exact hf
  | succ n ih => exact fault_kept_of_latched ih (hne n) (hrun n)

/-- Settles O60: both parts by induction, over the steps and along the run. -/
theorem endedRunsStayEndedAndFaultedRunsNeverEnd :
    Obligations.EndedRunsStayEndedAndFaultedRunsNeverEnd := by
  refine ⟨fun s ts h hsteps => run_of_ended h hsteps, fun schedule states hrun hfaulted hne n => ?_⟩
  obtain ⟨f, hf⟩ := Option.ne_none_iff_exists'.1 hfaulted
  have hn := fault_kept_of_run hrun hf hne n
  exact ⟨hn.trans hf.symm, fun hended => by rw [hended.1] at hn; cases hn⟩

end Sys2Proof.Proofs
end

section
/-!
PROOFS, control flow and arithmetic (spec/40_control_flow.md, spec/41_alu.md). Each instruction completes as `completed`
says; its frame is that of its update, and what is left of a claim is the value written.
-/

namespace Sys2Proof.Proofs

open Sys2Proof.Machine

/-! ### Control flow -/

/-- Settles O16: the decoder's group 0 by the operand check of SYS, the meaning by definition. -/
theorem sysIsTheNoOp : Obligations.SysIsTheNoOp := by
  refine ⟨fun nnn hcls hret => ?_, fun nnn s => rfl⟩
  exact decodeWord_encode (i := .sys nnn) (by simp [Instr.wf, sysOperandOk, hcls, hret])

/-- Settles O17: the 12-bit address is zero-extended. -/
theorem jumpOverwritesThePc : Obligations.JumpOverwritesThePc :=
  ⟨fun nnn => decodeWord_encode (i := .jp nnn) rfl,
    fun nnn s => ⟨_, rfl, addrOf_toNat nnn, frame_setPc s _⟩⟩

/-- Settles O18: an empty stack is the fault of `faultOf`, another one is popped. -/
theorem returnPopsTheStackOrUnderflows : Obligations.ReturnPopsTheStackOrUnderflows := by
  refine ⟨decodeWord_encode (i := .ret) rfl, fun s hs => ?_, fun s a rest hs => ?_⟩
  · exact exec_of_fault (by simp [faultOf, hs])
  · have hexec : exec .ret s = .next { s with pc := a, stack := rest } := by
      rw [exec_of_no_fault (by simp [faultOf, hs]), completed, hs]
      rfl
    refine ⟨_, hexec, rfl, rfl, fun hinv => ?_, frame_pc_stack s a rest⟩
    obtain ⟨-, -, hret, -⟩ := hinv
    exact hret a (by simp [hs])

theorem exec_call_of_room {nnn : Addr12} {s : State} (h : s.stack.length ≠ 16) :
    exec (.call nnn) s = .next { s with pc := addrOf nnn, stack := s.pc :: s.stack } :=
  exec_of_no_fault (if_neg h)

/-- Settles O19: a full stack is the fault of `faultOf`, another one is pushed on. -/
theorem callPushesTheReturnAddressOrOverflows : Obligations.CallPushesTheReturnAddressOrOverflows :=
  fun nnn s => ⟨fun hfull => exec_of_fault (if_pos hfull),
    fun hroom => ⟨_, exec_call_of_room hroom, addrOf_toNat nnn, rfl, frame_pc_stack s _ _⟩⟩

/-- Settles O20: the return pops what the call pushed. -/
theorem callThenReturnResumesAfterTheCall : Obligations.CallThenReturnResumesAfterTheCall :=
  fun _ _ _ hroom => ⟨_, exec_call_of_room hroom, rfl⟩

/-- Settles O21: the sum of two numbers this small is not reduced. -/
theorem indexedJumpAddsV0 : Obligations.IndexedJumpAddsV0 := fun nnn s =>
  ⟨_, rfl, addrOf_add_regWord_toNat nnn s 0, frame_setPc s _⟩

/-- The `pc` after a skip on equality and on inequality. -/
theorem skipIf_beq_pc (s : State) (a b : Byte) :
    (s.skipIf (a == b)).pc = if a = b then s.pc + 2 else s.pc := by
  by_cases h : a = b <;> simp [h]

theorem skipIf_bne_pc (s : State) (a b : Byte) :
    (s.skipIf (a != b)).pc = if a = b then s.pc else s.pc + 2 := by
  by_cases h : a = b <;> simp [h]

/-- Settles O22: the words by the encoder, the meanings by the law of the skip. -/
theorem constantSkipsCompareARegister : Obligations.ConstantSkipsCompareARegister :=
  ⟨fun x nn => ⟨decodeWord_encode (i := .seVxNn (regOf x) nn) rfl,
      decodeWord_encode (i := .sneVxNn (regOf x) nn) rfl⟩,
    fun _ _ s =>
      ⟨⟨_, rfl, skipIf_beq_pc .., frame_skipIf s _⟩, ⟨_, rfl, skipIf_bne_pc .., frame_skipIf s _⟩⟩⟩

/-- The register skips with a low nibble that is not 0 are illegal (R66 (a), (b)). -/
theorem decodeFields_skip_lowNibble {n3 n : Nibble} (hn3 : n3 = 0x5#4 ∨ n3 = 0x9#4) (hn : n ≠ 0x0#4)
    (x y : Reg) (nn : Byte) (nnn : Addr12) : decodeFields n3 x y n nn nnn = none := by
  rcases hn3 with rfl | rfl <;> exact if_neg hn

/-- Settles O23: the meanings by the law of the skip, the illegal words by the fields of format REGREG. -/
theorem registerSkipsCompareTwoRegisters : Obligations.RegisterSkipsCompareTwoRegisters := by
  refine ⟨fun _ _ s =>
    ⟨⟨_, rfl, skipIf_beq_pc .., frame_skipIf s _⟩, ⟨_, rfl, skipIf_bne_pc .., frame_skipIf s _⟩⟩,
    fun n3 x y n hn3 hn => decodeWord_eq_error.2 ⟨?_, ?_⟩⟩
  · exact decode?_regReg (x := regOf x) (y := regOf y)
      fun nn nnn => decodeFields_skip_lowNibble hn3 hn _ _ nn nnn
  · exact (encodeRegReg_fields n3 (regOf x) (regOf y) n).symm

/-! ### One register written -/

theorem reg_setReg_self (s : State) (x : Reg) (b : Byte) : (s.setReg x b).reg x = b := by
  rw [State.reg_setReg, if_pos rfl]

/-- Settles O24: one register is written, with the constant and with the sum. -/
theorem constantLoadAndAddWriteOneRegister : Obligations.ConstantLoadAndAddWriteOneRegister := by
  intro x nn s
  refine ⟨⟨_, rfl, reg_setReg_self .., frame_setReg s x nn⟩, ⟨_, rfl, ?_, frame_setReg s x _⟩⟩
  rw [reg_setReg_self, BitVec.toNat_add]

/-- Settles O25: one register is written, with the other one's byte. -/
theorem registerCopyWritesOneRegister : Obligations.RegisterCopyWritesOneRegister :=
  ⟨fun x y => decodeWord_encode (i := .ldVxVy (regOf x) (regOf y)) rfl,
    fun x _ s => ⟨_, rfl, reg_setReg_self .., frame_setReg s x _⟩⟩

/-- Settles O26: one register is written, each bit from the two old ones. -/
theorem logicOperationsWriteOneRegister : Obligations.LogicOperationsWriteOneRegister := by
  intro x y s
  refine ⟨⟨_, rfl, fun k => ?_, frame_setReg s x _⟩, ⟨_, rfl, fun k => ?_, frame_setReg s x _⟩,
    ⟨_, rfl, fun k => ?_, frame_setReg s x _⟩⟩
  · rw [reg_setReg_self, BitVec.getLsbD_or]
  · rw [reg_setReg_self, BitVec.getLsbD_and]
  · rw [reg_setReg_self, BitVec.getLsbD_xor]

/-! ### A register and the flag written -/

/-- The destination of a flag-writing instruction, when it is not `VF`. -/
theorem reg_writeWithFlag_result (s : State) {x : Reg} (hx : x ≠ 15) (b : Byte) (f : Bool) :
    (s.writeWithFlag x b f).reg x = b := by
  rw [State.reg_writeWithFlag, if_neg hx, if_pos rfl]

theorem flagByte_decide_toNat (p : Prop) [Decidable p] : (flagByte (decide p)).toNat = if p then 1 else 0 := by
  by_cases h : p <;> simp [flagByte, h]

/-- A difference of bytes, by whether it borrows. -/
theorem toNat_sub_byte (a b : Byte) : (a - b).toNat =
    if b.toNat ≤ a.toNat then a.toNat - b.toNat else a.toNat + 256 - b.toNat := by
  have := a.isLt
  have := b.isLt
  rw [BitVec.toNat_sub]
  split <;> omega

/-- Settles O27: the sum by arithmetic, the carry as a flag byte. -/
theorem addSetsTheCarry : Obligations.AddSetsTheCarry := by
  refine ⟨fun x y => decodeWord_encode (i := .addVxVy (regOf x) (regOf y)) rfl, fun x y s =>
    ⟨_, rfl, fun hx => ?_, ?_, frame_writeWithFlag s x _ _⟩⟩
  · rw [reg_writeWithFlag_result s hx, BitVec.toNat_add]
  · rw [reg_writeWithFlag_flag, carryOut, flagByte_decide_toNat]

/-- Settles O28: the difference by arithmetic, no borrow as a flag byte. -/
theorem subtractSetsNoBorrow : Obligations.SubtractSetsNoBorrow := by
  refine ⟨fun x y => decodeWord_encode (i := .subVxVy (regOf x) (regOf y)) rfl, fun x y s =>
    ⟨_, rfl, fun hx => ?_, ?_, frame_writeWithFlag s x _ _⟩⟩
  · rw [reg_writeWithFlag_result s hx, toNat_sub_byte]
  · rw [reg_writeWithFlag_flag, noBorrow, flagByte_decide_toNat]

/-- Settles O29: the reverse difference by arithmetic, no borrow as a flag byte. -/
theorem reverseSubtractSetsNoBorrow : Obligations.ReverseSubtractSetsNoBorrow := by
  refine fun x y s => ⟨_, rfl, fun hx => ?_, ?_, frame_writeWithFlag s x _ _⟩
  · rw [reg_writeWithFlag_result s hx, toNat_sub_byte]
  · rw [reg_writeWithFlag_flag, noBorrow, flagByte_decide_toNat]

theorem flagByte_lowBit_toNat (b : Byte) : (flagByte (lowBit b)).toNat = b.toNat % 2 := by
  rw [lowBit, BitVec.getLsbD, Nat.testBit_eq_decide_div_mod_eq, flagByte_decide_toNat]
  split <;> omega

theorem flagByte_highBit_toNat (b : Byte) : (flagByte (highBit b)).toNat = b.toNat / 128 := by
  have := b.isLt
  rw [highBit, BitVec.getLsbD, Nat.testBit_eq_decide_div_mod_eq, flagByte_decide_toNat]
  split <;> omega

/-- Settles O30: the shifts by arithmetic, the bit shifted out as a flag byte; `Y` stands in no arm. -/
theorem shiftsMoveOneBitInPlace : Obligations.ShiftsMoveOneBitInPlace := by
  refine ⟨fun x y => ⟨decodeWord_encode (i := .shrVx (regOf x) (regOf y)) rfl,
    decodeWord_encode (i := .shlVx (regOf x) (regOf y)) rfl⟩, fun x y s =>
    ⟨⟨_, rfl, fun hx => ?_, ?_, frame_writeWithFlag s x _ _⟩,
      ⟨_, rfl, fun hx => ?_, ?_, frame_writeWithFlag s x _ _⟩, fun y' => ⟨rfl, rfl⟩⟩⟩
  · rw [reg_writeWithFlag_result s hx, BitVec.toNat_ushiftRight, Nat.shiftRight_one]
  · rw [reg_writeWithFlag_flag, flagByte_lowBit_toNat]
  · rw [reg_writeWithFlag_result s hx, BitVec.toNat_shiftLeft, Nat.shiftLeft_eq]
  · rw [reg_writeWithFlag_flag, flagByte_highBit_toNat]

end Sys2Proof.Proofs
end

section
/-!
PROOFS, the display (spec/42_display.md; spec/48_host_operations.md R177). A draw is the XOR of a picture by
`drawRows_spec`; two draws of one picture cancel; the snapshot reads the rows one after another.
-/

namespace Sys2Proof.Proofs

open Sys2Proof.Machine

/-- Settles O32: every cell of the cleared display reads clear. -/
theorem clearScreenClearsEveryCell : Obligations.ClearScreenClearsEveryCell := fun s =>
  ⟨_, rfl, pixel_clearFb, rfl, frame_fb_dirty s _ _⟩

/-! ### A draw -/

/-- The picture a draw XORs on the display: the bit of its sprite on a cell. -/
def sprite (s : State) (x y : Reg) (n : Nibble) (row col : Nat) : Bool :=
  spriteBit (s.readBytes s.i.toNat n.toNat) ((s.reg y).toNat % 32) ((s.reg x).toNat % 64) row col

theorem pixel_drw (s : State) (x y : Reg) (n : Nibble) {row col : Nat} (hrow : row < 32) (hcol : col < 64) :
    pixel (completed (.drwVxVyN x y n) s).fb row col = (pixel s.fb row col ^^ sprite s x y n row col) :=
  (drawRows_spec _ _ _ (s.fb, false)).1 row col hrow hcol

/-- The collision of a draw: a set bit of the sprite met a set cell. -/
theorem drawSprite_collides (s : State) (x y : Reg) (n : Nibble) : (s.drawSprite x y n).2 = true ↔
    ∃ row col, row < 32 ∧ col < 64 ∧ pixel s.fb row col = true ∧ sprite s x y n row col = true := by
  rw [State.drawSprite, (drawRows_spec _ _ _ (s.fb, false)).2]
  simp only [Bool.false_eq_true, false_or, and_comm (a := pixel s.fb _ _ = true)]
  rfl

theorem flagByte_eq_one_iff (f : Bool) : flagByte f = 0x01#8 ↔ f = true := by
  cases f <;> decide

theorem flagByte_eq_zero_iff (f : Bool) : flagByte f = 0x00#8 ↔ f = false := by
  cases f <;> decide

/-- `VF` after a draw is its collision. -/
theorem reg_flag_drw (s : State) (x y : Reg) (n : Nibble) :
    (completed (.drwVxVyN x y n) s).reg 15 = flagByte (s.drawSprite x y n).2 := by
  rw [completed, State.reg_setFlag, if_pos rfl]

theorem reg_flag_drw_eq_one (s : State) (x y : Reg) (n : Nibble) :
    (completed (.drwVxVyN x y n) s).reg 15 = 0x01#8 ↔
      ∃ row col, row < 32 ∧ col < 64 ∧ pixel s.fb row col = true ∧ sprite s x y n row col = true := by
  rw [reg_flag_drw, flagByte_eq_one_iff, drawSprite_collides]

/-- With its rows in memory a draw completes. -/
theorem exec_drw_of_inside {x y : Reg} {n : Nibble} {s : State}
    (h : n.toNat = 0 ∨ s.i.toNat + n.toNat - 1 ≤ 0xFFF) :
    exec (.drwVxVyN x y n) s = .next (completed (.drwVxVyN x y n) s) :=
  exec_of_no_fault (if_neg (by omega))

/-- Settles O33: the cells and the collision by the law of the sprite, the fault by `faultOf`. -/
theorem drawIsTheXorOfTheClippedSprite : Obligations.DrawIsTheXorOfTheClippedSprite :=
  fun x y n s => ⟨fun h => ⟨_, s.readBytes s.i.toNat n.toNat, exec_drw_of_inside h, rfl,
    fun _ _ => pixel_drw s x y n, reg_flag_drw s x y n ▸ flagByte_eq_zero_or_one _, reg_flag_drw_eq_one s x y n,
    rfl, frame_draw s _ _ _⟩, fun h0 hout => exec_of_fault (if_pos ⟨h0, hout⟩)⟩

/-! ### A draw drawn again -/

/-- A draw keeps its picture when it does not overwrite a coordinate. -/
theorem sprite_drw {x y : Reg} (hx : x ≠ 15) (hy : y ≠ 15) (s : State) (n : Nibble) :
    sprite (completed (.drwVxVyN x y n) s) x y n = sprite s x y n := by
  unfold sprite
  simp only [completed, State.reg_setFlag, if_neg hx, if_neg hy]
  rfl

theorem fb_drw_drw {x y : Reg} (hx : x ≠ 15) (hy : y ≠ 15) (s : State) (n : Nibble) :
    (completed (.drwVxVyN x y n) (completed (.drwVxVyN x y n) s)).fb = s.fb := by
  refine framebuffer_ext fun row col hrow hcol => ?_
  rw [pixel_drw _ x y n hrow hcol, pixel_drw s x y n hrow hcol, sprite_drw hx hy, Bool.xor_assoc, Bool.xor_self,
    Bool.xor_false]

/-- Drawn on a clear display, the cells set are those of the picture on the screen. -/
theorem pixel_drw_of_clear {s : State} (hclear : ∀ row col, pixel s.fb row col = false) (x y : Reg) (n : Nibble)
    (row col : Nat) : pixel (completed (.drwVxVyN x y n) s).fb row col = true ↔
      row < 32 ∧ col < 64 ∧ sprite s x y n row col = true := by
  by_cases hin : row < 32 ∧ col < 64
  · rw [pixel_drw s x y n hin.1 hin.2, hclear, Bool.false_xor]
    simp only [hin, true_and]
  · rw [pixel_outside _ hin]
    exact ⟨nofun, fun h => absurd ⟨h.1, h.2.1⟩ hin⟩

/-- Settles O34: the second draw has the same picture, which cancels; on a clear display it meets the first one. -/
theorem redrawErases : Obligations.RedrawErases := by
  intro x y n s hx hy hin
  refine ⟨_, _, exec_drw_of_inside hin, exec_drw_of_inside hin, fb_drw_drw hx hy s n, fun hclear => ⟨?_, ?_⟩⟩
  · rw [reg_flag_drw, flagByte_eq_zero_iff, Bool.eq_false_iff, ne_eq, drawSprite_collides]
    rintro ⟨row, col, -, -, hset, -⟩
    rw [hclear] at hset
    cases hset
  · rw [reg_flag_drw_eq_one, sprite_drw hx hy]
    simp only [pixel_drw_of_clear hclear]
    exact exists₂_congr fun row col => by tauto

/-! ### The snapshot -/

/-- An element of rows of equal length, put one after another. -/
theorem getElem?_flatMap_rows {α β : Type} {f : α → List β} {w : Nat} (hw : ∀ a, (f a).length = w) :
    ∀ (l : List α) {y x : Nat}, x < w → (l.flatMap f)[y * w + x]? = l[y]?.bind fun a => (f a)[x]?
  | [], y, x, _ => by simp
  | a :: l, 0, x, hx => by
    simp [List.getElem?_append_left (hw a ▸ hx)]
  | a :: l, y + 1, x, hx => by
    have hle : (f a).length ≤ (y + 1) * w + x := by rw [hw, Nat.succ_mul]; omega
    have hsub : (y + 1) * w + x - (f a).length = y * w + x := by rw [hw, Nat.succ_mul]; omega
    rw [List.flatMap_cons, List.getElem?_append_right hle, hsub, getElem?_flatMap_rows hw l hx]
    rfl

/-- Settles O54: rows of 64 cells one after another, 32 of them. -/
theorem displaySnapshotIsRowMajor : Obligations.DisplaySnapshotIsRowMajor := by
  refine fun s => ⟨rfl, s.displayCells, rfl, ?_, fun y x hy hx => ?_⟩
  · simp [State.displayCells, List.length_flatMap]
  · rw [State.displayCells, getElem?_flatMap_rows (w := 64) (fun row => by simp) _ hx, pixel_eq _ hy hx]
    simp [hy, hx]

end Sys2Proof.Proofs
end

section
/-!
PROOFS, timers and keypad (spec/43_timers.md, spec/44_keypad.md).
-/

namespace Sys2Proof.Proofs

open Sys2Proof.Machine

/-! ### Timers -/

/-- Settles O35: one byte is written, with the frame of its field. -/
theorem timerMovesCopyOneByte : Obligations.TimerMovesCopyOneByte := fun x s =>
  ⟨⟨_, rfl, reg_setReg_self .., frame_setReg s x _⟩, ⟨_, rfl, rfl, frame_dt s _⟩,
    ⟨_, rfl, rfl, frame_st s _⟩⟩

/-- A countdown is a truncated subtraction. -/
theorem toNat_countDown_eq_sub (b : Byte) : (countDown b).toNat = b.toNat - 1 := by
  rw [toNat_countDown]
  split <;> omega

/-- Settles O37: by induction over the ticks, one at the head. -/
theorem repeatedTicksReachZero : Obligations.RepeatedTicksReachZero := by
  intro n
  induction n with
  | zero => exact fun s => ⟨s, rfl, rfl, rfl, changesOnly_refl _ s⟩
  | succ n ih =>
    intro s
    obtain ⟨t, hrun, hdt, hst, hframe⟩ := ih s.tickTimers
    refine ⟨t, ?_, ?_, ?_, changesOnly_trans (frame_tickTimers s) hframe⟩
    · rw [List.replicate_succ, runTransactions_cons _ (s' := s.tickTimers) rfl, hrun]
    · rw [hdt, State.tickTimers_dt, toNat_countDown_eq_sub]; omega
    · rw [hst, State.tickTimers_st, toNat_countDown_eq_sub]; omega

/-! ### Keypad -/

/-- Settles O38: a number of a key is tested, another one is the fault of `faultOf`. -/
theorem keySkipsReadTheLatch : Obligations.KeySkipsReadTheLatch := by
  refine fun x s => ⟨fun hkey => ?_, fun hout => ⟨exec_of_fault (if_pos hout), exec_of_fault (if_pos hout)⟩⟩
  have hin : ¬ 15 < (s.reg x).toNat := by omega
  refine ⟨⟨_, exec_of_no_fault (if_neg hin), State.skipIf_pc .., frame_skipIf s _⟩,
    ⟨_, exec_of_no_fault (if_neg hin), ?_, frame_skipIf s _⟩⟩
  rw [completed, State.skipIf_pc]
  cases s.keyDown (s.reg x).toNat <;> rfl

/-- The least pressed key is the one below which none is pressed. -/
theorem leastKey_of_least {s : State} {k : Nat} (hk : k ≤ 15) (hdown : s.keyDown k = true)
    (hleast : ∀ j, j < k → s.keyDown j = false) : s.leastKey = some k :=
  List.find?_range_eq_some.2 ⟨hdown, List.mem_range.2 (Nat.lt_succ_of_le hk), fun j hj => by simp [hleast j hj]⟩

theorem leastKey_of_none_pressed {s : State} (h : ∀ k, s.keyDown k = false) : s.leastKey = none :=
  List.find?_range_eq_none.2 fun k _ => by simp [h k]

/-- With no key pressed the wait takes `pc` back by 2. -/
theorem exec_ldVxK_of_none_pressed (x : Reg) {s : State} (h : ∀ k, s.keyDown k = false) :
    exec (.ldVxK x) s = .next (s.setPc (s.pc - 2)) := by
  rw [exec_of_no_fault rfl, completed, leastKey_of_none_pressed h]
  rfl

/-- Settles O39: by whether there is a least pressed key. -/
theorem keyWaitTakesTheLeastPressedKey : Obligations.KeyWaitTakesTheLeastPressedKey := by
  refine fun x s => ⟨fun k hk hdown hleast => ?_, fun hnone =>
    ⟨_, exec_ldVxK_of_none_pressed x hnone, rfl, frame_setPc s _⟩⟩
  have hexec : exec (.ldVxK x) s = .next (s.setReg x (BitVec.ofNat 8 k)) := by
    rw [exec_of_no_fault rfl, completed, leastKey_of_least hk hdown hleast]
    rfl
  refine ⟨_, hexec, ?_, frame_setReg s x _⟩
  rw [reg_setReg_self, BitVec.toNat_ofNat]
  omega

/-- Settles O40: the wait takes back the advance of its own fetch. -/
theorem keyWaitWithNoKeyIsFetchedAgain : Obligations.KeyWaitWithNoKeyIsFetchedAgain := by
  intro s op x hs hop hd hnone
  have hback : s.advance.setPc (s.advance.pc - 2) = s := by
    rw [State.advance_pc, BitVec.add_sub_cancel]
    rfl
  refine ⟨?_, by simp only [stepResponse, hs]⟩
  rw [step_of_decoded hs hop hd, exec_ldVxK_of_none_pressed x (s := s.advance) hnone, hback]

end Sys2Proof.Proofs
end

section
/-!
PROOFS, the index register and memory (spec/45_index_memory.md, spec/20_memory.md).
-/

namespace Sys2Proof.Proofs

open Sys2Proof.Machine

/-! ### The index register -/

/-- Settles O42: the 12-bit address is zero-extended, the sum wraps at 16 bits. -/
theorem indexLoadAndAddWriteTheIndex : Obligations.IndexLoadAndAddWriteTheIndex := by
  refine ⟨fun nnn s => ⟨_, rfl, addrOf_toNat nnn, frame_setIndex s _⟩, fun x s =>
    ⟨_, rfl, ?_, frame_setIndex s _⟩⟩
  rw [State.setIndex_i, BitVec.toNat_add, regWord_toNat]

theorem glyphAddr_toNat (b : Byte) : (glyphAddr b).toNat = 0x050 + b.toNat % 16 * 5 := by
  simp only [glyphAddr, fontBase, Config.glyphBytes, BitVec.toNat_ofNat]
  omega

/-- Settles O43: the address of a glyph is far below 65536. -/
theorem fontAddressIsBaseAndFiveTimesTheDigit : Obligations.FontAddressIsBaseAndFiveTimesTheDigit :=
  ⟨fun x => decodeWord_encode (i := .ldFVx (regOf x)) rfl,
    fun x s => ⟨_, rfl, glyphAddr_toNat (s.reg x), frame_setIndex s _⟩⟩

/-! ### Stores and loads at the index -/

/-- A byte inside a list that was written. -/
theorem readByte_writeBytes_inside (s : State) (a : Nat) (bs : List Byte) {k : Nat} (hk : k < bs.length) :
    (s.writeBytes a bs).readByte (a + k) = bs.getD k 0 := by
  rw [State.readByte_writeBytes, if_pos (by omega), Nat.add_sub_cancel_left]

/-- The three digits as numbers. -/
theorem decimalDigits_toNat (b : Byte) : ((decimalDigits b).getD 0 0).toNat = b.toNat / 100 ∧
    ((decimalDigits b).getD 1 0).toNat = b.toNat / 10 % 10 ∧ ((decimalDigits b).getD 2 0).toNat = b.toNat % 10 := by
  have := b.isLt
  simp only [decimalDigits, List.getD_cons_zero, List.getD_cons_succ, BitVec.toNat_ofNat]
  omega

/-- Settles O44: the digits by the law of the write, the fault by `faultOf`. -/
theorem decimalStoreWritesThreeDigits : Obligations.DecimalStoreWritesThreeDigits := by
  intro x s
  obtain ⟨hhundreds, htens, hones⟩ := decimalDigits_toNat (s.reg x)
  have hread : ∀ k, k < 3 → (completed (.ldBVx x) s).readByte (s.i.toNat + k) =
      (decimalDigits (s.reg x)).getD k 0 := fun k hk => readByte_writeBytes_inside s _ _ hk
  refine ⟨fun h => ⟨_, exec_of_no_fault (if_neg (by omega)), ?_, ?_, ?_, ?_⟩, fun h => exec_of_fault (if_pos h)⟩
  · exact (congrArg BitVec.toNat (hread 0 (by omega))).trans hhundreds
  · exact (congrArg BitVec.toNat (hread 1 (by omega))).trans htens
  · exact (congrArg BitVec.toNat (hread 2 (by omega))).trans hones
  · exact changesOnly_mono (frame_writeBytes s _ _) fun p ⟨k, hk, hp⟩ => ⟨k, Nat.le_of_lt_succ hk, hp⟩

theorem exec_ldMemIVx_of_inside {x : Reg} {s : State} (h : s.i.toNat + x.val ≤ 0xFFF) :
    exec (.ldMemIVx x) s = .next (s.writeBytes s.i.toNat (s.regsUpTo x)) :=
  exec_of_no_fault (if_neg (by omega))

theorem exec_ldVxMemI_of_inside {x : Reg} {s : State} (h : s.i.toNat + x.val ≤ 0xFFF) :
    exec (.ldVxMemI x) s = .next { s with v := loadRegs s.v 0 (s.readBytes s.i.toNat (x.val + 1)) } :=
  exec_of_no_fault (if_neg (by omega))

/-- What a register store put in memory. -/
theorem readByte_stored (s : State) (a : Nat) {x r : Reg} (h : r.val ≤ x.val) :
    (s.writeBytes a (s.regsUpTo x)).readByte (a + r.val) = s.reg r := by
  rw [readByte_writeBytes_inside s a _ (by rw [regsUpTo_length]; omega), regsUpTo_getD s h]

/-- What a register load put in the registers. -/
theorem reg_loaded (s : State) (a : Nat) {x r : Reg} (h : r.val ≤ x.val) :
    State.reg { s with v := loadRegs s.v 0 (s.readBytes a (x.val + 1)) } r = s.readByte (a + r.val) := by
  rw [State.reg, loadRegs_getElem _ _ _ _ r.isLt, readBytes_length, if_pos (by omega), Nat.sub_zero,
    readBytes_getD s (by omega)]

/-- Settles O45: the bytes by the law of the write, the fault by `faultOf`. -/
theorem registerStoreWritesV0ToVX : Obligations.RegisterStoreWritesV0ToVX := by
  refine fun x s => ⟨fun h => ⟨_, exec_ldMemIVx_of_inside h, fun r hr => readByte_stored s _ hr, ?_⟩,
    fun h => exec_of_fault (if_pos h)⟩
  refine changesOnly_mono (frame_writeBytes s _ _) fun p ⟨k, hk, hp⟩ => ⟨k, ?_, hp⟩
  rw [regsUpTo_length] at hk
  omega

/-- Settles O46: the registers by the law of the load, the fault by `faultOf`. -/
theorem registerLoadReadsV0ToVX : Obligations.RegisterLoadReadsV0ToVX := by
  refine fun x s => ⟨fun h => ⟨_, exec_ldVxMemI_of_inside h, fun r hr => reg_loaded s _ hr, ?_⟩,
    fun h => exec_of_fault (if_pos h)⟩
  refine changesOnly_mono (frame_loadRegs s _) fun p ⟨r, hr, hp⟩ => ⟨r, ?_, hp⟩
  rw [readBytes_length] at hr
  omega

/-- Settles O47: the load reads back the bytes of the store. -/
theorem storeThenLoadRestoresTheRegisters : Obligations.StoreThenLoadRestoresTheRegisters := by
  intro x s v h
  refine ⟨_, _, exec_ldMemIVx_of_inside h, exec_ldVxMemI_of_inside h, fun r hr => ?_⟩
  exact (reg_loaded _ _ hr).trans (readByte_stored s _ hr)

/-- Settles O48: the two bytes at `pc` are two of those stored. -/
theorem storesAreSeenByTheNextFetch : Obligations.StoresAreSeenByTheNextFetch := by
  intro x r r' s h hr hr' hpc
  refine ⟨_, exec_ldMemIVx_of_inside h, ?_⟩
  rw [fetch_inside (by rw [State.writeBytes_pc]; omega), State.writeBytes_pc, hpc, Nat.add_assoc, ← hr',
    readByte_stored s _ (by omega), readByte_stored s _ (by omega)]

/-! ### Canonical memories -/

theorem wfFrom_cons {low k : Nat} {b : Byte} {m : Memory} :
    Memory.wfFrom low ((k, b) :: m) = true ↔
      low ≤ k ∧ k < Config.memSize ∧ b ≠ Memory.background k ∧ Memory.wfFrom (k + 1) m = true := by
  simp only [Memory.wfFrom, Bool.and_eq_true, decide_eq_true_eq, bne_iff_ne, and_assoc]

theorem read_cons_self (k : Nat) (b : Byte) (m : Memory) : Memory.read ((k, b) :: m) k = b := if_pos rfl

theorem read_cons_of_ne {k a : Nat} (b : Byte) (m : Memory) (h : a ≠ k) :
    Memory.read ((k, b) :: m) a = m.read a := if_neg h.symm

/-- Of two canonical memories that read alike, neither lists a first cell below the other's. -/
theorem head_le_of_read {low low' k k' : Nat} {b b' : Byte} {m m' : Memory}
    (h : Memory.wfFrom low ((k, b) :: m) = true) (h' : Memory.wfFrom low' ((k', b') :: m') = true)
    (hread : ∀ a, Memory.read ((k, b) :: m) a = Memory.read ((k', b') :: m') a) : k' ≤ k := by
  by_contra hlt
  obtain ⟨-, -, hb, -⟩ := wfFrom_cons.1 h
  obtain ⟨-, hk', hb', hm'⟩ := wfFrom_cons.1 h'
  have hfrom : Memory.wfFrom k' ((k', b') :: m') = true := wfFrom_cons.2 ⟨le_rfl, hk', hb', hm'⟩
  refine hb ?_
  rw [← read_cons_self k b m, hread k, Memory.read_of_wfFrom_lt (by omega) hfrom]

/-- A memory that lists a cell does not read like the empty list. -/
theorem exists_read_ne_background {low k : Nat} {b : Byte} {m : Memory}
    (h : Memory.wfFrom low ((k, b) :: m) = true) : ∃ a, Memory.read ((k, b) :: m) a ≠ Memory.read [] a := by
  obtain ⟨-, -, hb, -⟩ := wfFrom_cons.1 h
  exact ⟨k, by rwa [read_cons_self]⟩

/-- Canonical memories above one address that read alike are the same list. -/
theorem eq_of_wfFrom_of_read {low : Nat} {m m' : Memory} (h : Memory.wfFrom low m = true)
    (h' : Memory.wfFrom low m' = true) (hread : ∀ a, m.read a = m'.read a) : m = m' := by
  induction m generalizing low m' with
  | nil =>
    cases m' with
    | nil => rfl
    | cons c' rest' =>
      obtain ⟨a, ha⟩ := exists_read_ne_background h'
      exact absurd (hread a).symm ha
  | cons c rest ih =>
    obtain ⟨k, b⟩ := c
    cases m' with
    | nil =>
      obtain ⟨a, ha⟩ := exists_read_ne_background h
      exact absurd (hread a) ha
    | cons c' rest' =>
      obtain ⟨k', b'⟩ := c'
      obtain rfl : k = k' := le_antisymm (head_le_of_read h' h fun a => (hread a).symm) (head_le_of_read h h' hread)
      obtain rfl : b = b' := by rw [← read_cons_self k b rest, hread, read_cons_self]
      obtain ⟨-, -, -, hrest⟩ := wfFrom_cons.1 h
      obtain ⟨-, -, -, hrest'⟩ := wfFrom_cons.1 h'
      refine congrArg _ (ih hrest hrest' fun a => ?_)
      by_cases ha : a = k
      · rw [Memory.read_of_wfFrom_lt (by omega) hrest, Memory.read_of_wfFrom_lt (by omega) hrest']
      · rw [← read_cons_of_ne b rest ha, hread, read_cons_of_ne b rest' ha]

/-- Settles O49: canonical above address 0. -/
theorem canonicalMemoriesThatReadAlikeAreEqual : Obligations.CanonicalMemoriesThatReadAlikeAreEqual :=
  fun _ _ h h' hread => eq_of_wfFrom_of_read h h' hread

end Sys2Proof.Proofs
end

section
/-!
PROOFS, the random byte, the load and the reset (spec/46_random.md, spec/48_host_operations.md R171, R173).
-/

namespace Sys2Proof.Proofs

open Sys2Proof.Machine

/-! ### The random byte -/

/-- Settles O50: the drawn byte is masked; with none supplied it is the free value. -/
theorem randomByteIsMasked : Obligations.RandomByteIsMasked := by
  refine fun x nn s => ⟨_, rfl, fun b rest hin => ?_, fun hin => ?_, fun k hk => ?_, frame_rnd s x _⟩
  · rw [reg_setReg_self, State.setReg_drawInputs, State.afterDraw_drawInputs, State.drawnByte, hin]
    exact ⟨rfl, rfl⟩
  · rw [reg_setReg_self, State.drawnByte, hin]
  · rw [reg_setReg_self, BitVec.getLsbD_and, hk, Bool.and_false]

/-- Settles O51: the byte to be had is drawn itself. -/
theorem everyMaskedByteCanBeDrawn : Obligations.EveryMaskedByteCanBeDrawn := by
  intro s op x nn r hs hop hd hmask
  have hstep := step_of_decoded (s := { s with drawInputs := [r] }) hs hop hd
  refine ⟨r, _, stepDrawing_of_step (hstep.trans (exec_of_no_fault rfl)), ?_, rfl⟩
  refine (reg_setReg_self ..).trans ?_
  exact hmask

/-! ### The load -/

/-- Settles O52: a blob that fits is written at the program start. -/
theorem loadCopiesTheProgram : Obligations.LoadCopiesTheProgram := by
  intro bytes s hlen
  have hload : s.loadProgram bytes = s.writeBytes 0x200 bytes := by rw [State.loadProgram_eq, if_pos hlen]
  refine ⟨s.writeBytes 0x200 bytes, congrArg complete hload, ?_, fun k hk =>
    readByte_writeBytes_inside s _ bytes hk, frame_writeBytes s _ bytes⟩
  rw [respond, fitsProgram_eq, decide_eq_true hlen]
  rfl

/-! ### The reset -/

/-- The unlisted memory: the font at FONT_BASE and zero elsewhere (R45). -/
theorem background_eq (a : Nat) : Memory.background a =
    if 0x050 ≤ a ∧ a ≤ 0x09F then fontTable.getD (a - 0x050) 0 else 0 := by
  have hfont : (fontBase ≤ a ∧ a < fontBase + fontTable.length) ↔ (0x050 ≤ a ∧ a ≤ 0x09F) := by
    have hlen : fontTable.length = 80 := rfl
    rw [hlen, fontBase]
    omega
  simp only [Memory.background, hfont]
  rfl

/-- Settles O1: field by field; a register, a byte, a key and a cell read their reset value. -/
theorem resetLeavesEveryPieceAtItsValue : Obligations.ResetLeavesEveryPieceAtItsValue := by
  refine ⟨rfl, fun s => ⟨s.restart, rfl, fun r => ?_, rfl, rfl, rfl, rfl, rfl, fun a _ => background_eq a,
    fun k => ?_, pixel_clearFb, rfl, rfl⟩⟩
  · simp [State.reg, State.restart, State.reset]
  · by_cases hk : k < 16 <;> simp [State.keyDown, State.restart, State.reset, hk]

end Sys2Proof.Proofs
end
